-- ==== Sys2Proof/Word.lean ====
section
/-! DEFINITION. The machine word (00_scope.md R6, R12): one signed integer of 64 bits in two's complement, the unit of
memory, of addressing and of every data path. -/

namespace Sys2Proof

/-- One word: 64 bits, read as a signed integer through `BitVec.toInt` (R6). -/
abbrev Word := BitVec 64

/-- The least integer a word holds (R6). -/
def WMIN : Int := -9223372036854775808

/-- The greatest integer a word holds (R6). -/
def WMAX : Int := 9223372036854775807

/-- `fits(v)` of R12: the integer `v` is the value of some word. -/
def fits (v : Int) : Bool := decide (WMIN ≤ v) && decide (v ≤ WMAX)

end Sys2Proof
end

