-- ==== Sys2Proof/Config.lean ====
section
/-! DEFINITION. The parameters of an instance the spec leaves open (00_scope.md R7, 92_eei_decisions.md "Parameters left
open"). They are fixed for a run and held in State, so that every statement is about every value of them. The spec leaves
no result of an instruction open, so there is no free value here. -/

namespace Sys2Proof

/-- The optional parameter OVF: what ADD, MUL and ARB do with a result that does not fit a word. `fault` is R102 and the
default; `wrap` is the alternative that D3 and U1 let a model offer (log entry 3). -/
inductive Overflow where
  | fault
  | wrap
deriving DecidableEq, Repr

/-- One instance: its capacity `CAP` (R7, log entry 2) and its treatment of overflow (D3, log entry 3). -/
structure Config where
  cap : Nat
  ovf : Overflow
deriving DecidableEq, Repr

/-- The least capacity of an instance (R7). -/
def Config.minCap : Nat := 1

/-- The greatest capacity of an instance, `2^62` (R7). -/
def Config.maxCap : Nat := 4611686018427387904

/-- The constraint on `CAP`: `1 <= CAP <= 2^62` (R7). -/
def Config.wf (c : Config) : Bool := decide (Config.minCap ≤ c.cap) && decide (c.cap ≤ Config.maxCap)

end Sys2Proof
end

