-- ==== Sys2Proof/Machine/Params.lean ====
section
/-! DEFINITION. The instance `State.reset` stands for. The spec leaves `CAP` open and gives no default (R7, D2): the values
here are the model's (log entries 2 and 3), and no statement rests on them. -/

namespace Sys2Proof.Machine

/-- DESIGN CHOICE: the greatest capacity R7 allows, so that every address some instance has is an address of this one
(log entry 2). -/
def resetCap : Nat := 4611686018427387904

/-- The spec's default treatment of overflow: a fault (R102, D3, log entry 3). -/
def resetOverflow : Overflow := .fault

/-- The instance of `State.reset`. -/
def resetConfig : Config := { cap := resetCap, ovf := resetOverflow }

end Sys2Proof.Machine
end

