-- ==== Sys2Proof/Syntax.lean ====
section
/-! DEFINITION. The instructions as syntax (10_state.md R31, 30_encoding.md R64, R66): ten operations, each with its
ordered tagged parameters. One constructor for each row of spec/opcode_table.json. -/

namespace Sys2Proof

/-- The three addressing modes (R63). -/
inductive Mode where
  | position
  | immediate
  | relative
deriving DecidableEq, Repr

/-- A tagged parameter: how to read the raw word, and the raw word itself (R17, R65, R85). -/
structure Param where
  mode : Mode
  raw : Word
deriving DecidableEq, Repr

/-- The operation tags, in the order of the opcode map (R66). -/
inductive Op where
  | add
  | mul
  | input
  | output
  | jnz
  | jz
  | lt
  | eq
  | arb
  | hlt
deriving DecidableEq, Repr

/-- A decoded instruction: an operation tag carrying its parameters in the order their raw words follow the opcode word
(R17, R31). -/
inductive Instr where
  /-- ADD, opcode 1 (R100). -/
  | add (p0 p1 p2 : Param)
  /-- MUL, opcode 2 (R101). -/
  | mul (p0 p1 p2 : Param)
  /-- IN, opcode 3 (R110). -/
  | input (p0 : Param)
  /-- OUT, opcode 4 (R113). -/
  | output (p0 : Param)
  /-- JNZ, opcode 5 (R120). -/
  | jnz (p0 p1 : Param)
  /-- JZ, opcode 6 (R121). -/
  | jz (p0 p1 : Param)
  /-- LT, opcode 7 (R130). -/
  | lt (p0 p1 p2 : Param)
  /-- EQ, opcode 8 (R131). -/
  | eq (p0 p1 p2 : Param)
  /-- ARB, opcode 9 (R140). -/
  | arb (p0 : Param)
  /-- HLT, opcode 99 (R145). -/
  | hlt
deriving DecidableEq, Repr

/-- The operation tag of an instruction. -/
def Instr.op : Instr → Op
  | .add _ _ _ => .add
  | .mul _ _ _ => .mul
  | .input _ => .input
  | .output _ => .output
  | .jnz _ _ => .jnz
  | .jz _ _ => .jz
  | .lt _ _ _ => .lt
  | .eq _ _ _ => .eq
  | .arb _ => .arb
  | .hlt => .hlt

/-- The parameters of an instruction, `p0` first. -/
def Instr.params : Instr → List Param
  | .add p0 p1 p2 => [p0, p1, p2]
  | .mul p0 p1 p2 => [p0, p1, p2]
  | .input p0 => [p0]
  | .output p0 => [p0]
  | .jnz p0 p1 => [p0, p1]
  | .jz p0 p1 => [p0, p1]
  | .lt p0 p1 p2 => [p0, p1, p2]
  | .eq p0 p1 p2 => [p0, p1, p2]
  | .arb p0 => [p0]
  | .hlt => []

/-- The parameter count (R64); the instruction is one word longer (R60, R72). -/
def Instr.count (i : Instr) : Nat := i.params.length

/-- The raw parameter words, in order (R60). -/
def Instr.raws (i : Instr) : List Word := i.params.map Param.raw

/-- The destination parameter of the five writing instructions (R64, R84). -/
def Instr.dest : Instr → Option Param
  | .add _ _ p2 => some p2
  | .mul _ _ p2 => some p2
  | .input p0 => some p0
  | .output _ => none
  | .jnz _ _ => none
  | .jz _ _ => none
  | .lt _ _ p2 => some p2
  | .eq _ _ p2 => some p2
  | .arb _ => none
  | .hlt => none

end Sys2Proof
end

