-- ==== Sys2Proof/Machine/State.lean ====
section
/-! DEFINITION. The state of the machine (10_state.md R20, R31, R32, R35), plain data, and the reasons a step could give
no next state. -/

namespace Sys2Proof.Machine

/-- `status` (R27). The register is two bits wide and its value 3 never occurs, so the model holds the name; the number is
`RunStatus.code` (log entry 12). -/
inductive RunStatus where
  | running
  | halted
  | faulted
deriving DecidableEq, Repr

/-- `hcause` (R28). Two bits, value 3 never occurs; the number is `HaltCause.code` (log entry 12). -/
inductive HaltCause where
  | none
  | haltInstr
  | boundary
deriving DecidableEq, Repr

/-- `fcode` (R29, R150). Three bits, all eight values used; the number is `FaultCode.code` (log entry 12). -/
inductive FaultCode where
  | noFault
  | invalidOpcode
  | invalidAddressingMode
  | invalidWriteDestination
  | memoryOutOfBounds
  | inputReadFailure
  | inputParseFailure
  | arithmeticOverflow
deriving DecidableEq, Repr

/-- One answer of the input collaborator (R111). -/
inductive Answer where
  | value (v : Word)
  | readFailure
  | parseFailure
deriving DecidableEq, Repr

/-- What a request gets when the input sequence has run out: a scripted source answers ReadFailure (R111, D17), a live
one may never answer (R112). -/
inductive InputEnd where
  | readFailure
  | silent
deriving DecidableEq, Repr

/-- Whether the output collaborator takes a word, as R115 assumes, or never does (R115, R175). -/
inductive Sink where
  | accepting
  | stalled
deriving DecidableEq, Repr

/-- One event on the trace port (R172, D26): the address of the opcode word, the word, the opcode, the mode digits and the
decoded instruction. -/
structure TraceEvent where
  a0 : Word
  word : Word
  op : Nat
  digits : List Nat
  instr : Instr
deriving DecidableEq, Repr

/-- Memory as a list of (address, word) pairs. Canonical form: addresses strictly rising and no word equal to
`unlistedWord`. The smallest addressable unit of this machine is the word, and a model "must not introduce bytes" (R44,
R45, D22), so a cell holds a word (log entry 1). -/
abbrev Memory := List (Nat × Word)

/-- What an address that is not listed reads as: memory is zero-filled beyond the loaded program (R35, R40, R182). -/
def unlistedWord : Word := 0

/-- The state: the machine's own registers and memory (R20, R31), the environment's sequences (R32), and the parameters of
the instance (R7). -/
@[ext]
structure State where
  /-- The parameters of the instance; no step changes them (R7). -/
  cfg : Config
  /-- `mem` (R30, R40). -/
  mem : Memory
  /-- The instruction pointer (R21). -/
  ip : Word
  /-- The relative base (R24). -/
  rbase : Word
  /-- The run state (R27). -/
  status : RunStatus
  /-- Why the machine halted (R28). -/
  hcause : HaltCause
  /-- The fault's code (R29, R150). -/
  fcode : FaultCode
  /-- The fault's payload, 65 bits signed (R29). -/
  fval : BitVec 65
  /-- The address of the opcode word of the step that faulted (R29, R158). -/
  fpos : Word
  /-- `a0`: the address of the opcode word of the step in progress, latched from `ip` in phase F (R82). -/
  a0 : Word
  /-- The decoded-instruction latch (R31): empty between steps; while an Input or Output waits on its collaborator (R112,
  R115) its step is not over and the latch holds the instruction. -/
  latch : Option Instr
  /-- The answers the input collaborator will give, the next one first (R32, R111). -/
  input : List Answer
  /-- What follows the last answer (R111, R112, D17). -/
  inputEnd : InputEnd
  /-- The words emitted, the oldest first (R32, R114). -/
  output : List Word
  /-- The output collaborator (R115). -/
  sink : Sink
  /-- The optional trace observer and the events it has received, the oldest first (R172). -/
  trace : Option (List TraceEvent)
deriving DecidableEq, Repr

/-- The reasons for which a step could end in `Outcome.fault`: there are none. Every fault of this machine (R150) has an
entry the spec describes whole (R15, R161), so it is a NEXT state whose status is Faulted, and a Faulted machine's step
leaves it as it is (R83). Raised by nothing; safe (log entry 5). -/
inductive Fault where
deriving DecidableEq, Repr

/-- The reasons for which the model refuses. -/
inductive Refusal where
  /-- An instruction with no meaning yet. Raised by no arm of this model; safe. -/
  | notModelled (mnemonic : String)
  /-- `load`: the capacity is outside `1 .. 2^62` (R7, D2). Safe: no such instance exists. -/
  | capacityOutOfRange
  /-- `load`: the image is longer than the capacity (R182, D24). Safe: "the machine is not started". -/
  | imageTooLong
  /-- `load`: the image holds an integer that is no word (R182, D24). Safe: "the machine is not started". -/
  | imageValueOutOfRange
deriving DecidableEq, Repr

/-- The machine right after reset (R35, R180) with the empty image (R182: `L = 0` is allowed). Every value is the spec's
but for those of `cfg` (log entries 2, 3), `a0` (4), `input` and `inputEnd` (7), `sink` (9) and `trace` (10). Reset with an
image is `load`. -/
def State.reset : State where
  cfg := resetConfig
  mem := []
  ip := 0
  rbase := 0
  status := .running
  hcause := .none
  fcode := .noFault
  fval := 0
  fpos := 0
  a0 := 0
  latch := none
  input := []
  inputEnd := .readFailure
  output := []
  sink := .accepting
  trace := none

end Sys2Proof.Machine
end

