-- ==== Sys2Proof/Machine/Memory.lean ====
section
/-! DEFINITION. Memory as a list of (address, word) pairs in one canonical form: reading, writing, and filling from an
image (20_memory.md R42, R43, R44; 70_reset_and_hazards.md R182). Addresses here are already in range; the bounds check is
in Ops. -/

namespace Sys2Proof.Machine

/-- The word at an address; an address that is not listed reads as `unlistedWord` (R35). -/
def Memory.read : Memory → Nat → Word
  | [], _ => unlistedWord
  | (b, u) :: m, a => if a = b then u else Memory.read m a

/-- Memory with an address no longer listed. -/
def Memory.erase : Memory → Nat → Memory
  | [], _ => []
  | (b, u) :: m, a => if a = b then Memory.erase m a else (b, u) :: Memory.erase m a

/-- Memory with an address listed as holding a word. -/
def Memory.insert : Memory → Nat → Word → Memory
  | [], a, v => [(a, v)]
  | (b, u) :: m, a, v =>
    if a < b then (a, v) :: (b, u) :: m
    else if a = b then (a, v) :: m
    else (b, u) :: Memory.insert m a v

/-- Store one word (R43), keeping the canonical form: a word equal to what an unlisted address reads as is not listed. -/
def Memory.write (m : Memory) (a : Nat) (v : Word) : Memory :=
  if v = unlistedWord then m.erase a else m.insert a v

/-- Store consecutive words from an address (R182: `mem[i] <- program[i]`). -/
def Memory.writeAll (m : Memory) (a : Nat) : List Word → Memory
  | [] => m
  | v :: vs => Memory.writeAll (m.write a v) (a + 1) vs

/-- The canonical form: addresses strictly rising, no word equal to `unlistedWord`. -/
def Memory.wf : Memory → Bool
  | [] => true
  | (a, v) :: m => decide (v ≠ unlistedWord) && m.all (fun c => decide (a < c.1)) && Memory.wf m

/-- Every listed address is below the capacity (R40). -/
def Memory.below (cap : Nat) (m : Memory) : Bool := m.all (fun c => decide (c.1 < cap))

end Sys2Proof.Machine
end

