-- ==== Sys2Proof/Machine/Ops.lean ====
section
/-! DEFINITION. The named operations over memory, registers and the collaborators: bounds-checked access (R41 to R43),
taking a fault (R15, R161), the ends of a step, and the requests of Input and Output (R111, R114). -/

namespace Sys2Proof.Machine

/-! ## Register encodings (R27, R28, R150) -/

/-- The number in `status` (R27). -/
def RunStatus.code : RunStatus → BitVec 2
  | .running => 0
  | .halted => 1
  | .faulted => 2

/-- The number in `hcause` (R28). -/
def HaltCause.code : HaltCause → BitVec 2
  | .none => 0
  | .haltInstr => 1
  | .boundary => 2

/-- The number in `fcode` (R150, D14). -/
def FaultCode.code : FaultCode → BitVec 3
  | .noFault => 0
  | .invalidOpcode => 1
  | .invalidAddressingMode => 2
  | .invalidWriteDestination => 3
  | .memoryOutOfBounds => 4
  | .inputReadFailure => 5
  | .inputParseFailure => 6
  | .arithmeticOverflow => 7

/-! ## Faults -/

/-- A fault about to be taken: its code and its payload as an exact integer (R29, R150). -/
structure Raise where
  code : FaultCode
  value : Int
deriving DecidableEq, Repr

/-- `MemoryOutOfBounds(index)` (R154). -/
def outOfRange (index : Int) : Raise := ⟨.memoryOutOfBounds, index⟩

/-- `InvalidOpcode(OP)` (R151). -/
def badOpcode (op : Int) : Raise := ⟨.invalidOpcode, op⟩

/-- `InvalidAddressingMode(digit)` (R152). -/
def badMode (digit : Nat) : Raise := ⟨.invalidAddressingMode, digit⟩

/-- `InvalidWriteDestination`, payload 0 (R153). -/
def badDestination : Raise := ⟨.invalidWriteDestination, 0⟩

/-- `InputReadFailure`, payload 0 (R155). -/
def readFailed : Raise := ⟨.inputReadFailure, 0⟩

/-- `InputParseFailure`, payload 0 (R155). -/
def parseFailed : Raise := ⟨.inputParseFailure, 0⟩

/-- `ArithmeticOverflow`, payload 0 (R102, R157). -/
def overflowed : Raise := ⟨.arithmeticOverflow, 0⟩

/-- Taking a fault, `raise F(v)` (R15, R161): status, fcode, fval and fpos are written together, the step is over, and
everything else keeps its value, with no rollback. There is no return from a fault (R165). -/
def raise (s : State) (e : Raise) : State :=
  { s with
    status := .faulted
    fcode := e.code
    fval := BitVec.ofInt 65 e.value
    fpos := s.a0
    latch := none }

/-! ## The ends of a step -/

/-- The instruction has completed: the latch has been consumed (R31). -/
def retire (s : State) : State := { s with latch := none }

/-- The machine halts (R81, R145): status and hcause are written, the step is over. -/
def haltWith (s : State) (c : HaltCause) : State :=
  { s with status := .halted, hcause := c, latch := none }

/-- The step waits on a collaborator with instruction `i` (R112, R115): it stays in the latch and nothing else happens. -/
def waitOn (s : State) (i : Instr) : State := { s with latch := some i }

/-- End a step in `s`: complete it with the state computed, or take the fault raised. -/
def finish (s : State) : Except Raise State → Host.Outcome State Fault Refusal
  | .ok t => .next (retire t)
  | .error e => .next (raise s e)

/-! ## Bounds-checked memory access -/

/-- `0 <= a < CAP` (R41). -/
def inBounds (s : State) (a : Int) : Bool := decide (0 ≤ a) && decide (a < (s.cfg.cap : Int))

/-- `MemRead(a, 1)` (R42). -/
def memRead (s : State) (a : Int) : Except Raise Word :=
  if inBounds s a then .ok (s.mem.read a.toNat) else .error (outOfRange a)

/-- `MemWrite(a, 1, v)` (R43). -/
def memWrite (s : State) (a : Int) (v : Word) : Except Raise State :=
  if inBounds s a then .ok { s with mem := s.mem.write a.toNat v } else .error (outOfRange a)

/-! ## The collaborators -/

/-- `InputRequest()` (R111): the next answer and the state with it consumed; nothing when a live source that has no more
answers never replies (R112). -/
def requestInput (s : State) : Option (Answer × State) :=
  match s.input with
  | a :: rest => some (a, { s with input := rest })
  | [] =>
    match s.inputEnd with
    | .readFailure => some (.readFailure, s)
    | .silent => none

/-- `OutputEmit(x)` (R114): the state with the word handed over; nothing when the sink never takes it (R115). -/
def emitOutput (s : State) (x : Word) : Option State :=
  match s.sink with
  | .accepting => some { s with output := s.output ++ [x] }
  | .stalled => none

end Sys2Proof.Machine
end

