-- ==== Sys2Proof/Machine/Flags.lean ====
section
/-! DEFINITION. The functions of the ALU (40_fetch_decode_resolve.md R92). The machine has no flags and no condition codes
(10_state.md R26): a comparison's result is the word 1 or 0, and a jump's condition is a function of an operand. -/

namespace Sys2Proof.Machine

/-- The word of an exact result: the integer itself where it fits; otherwise ArithmeticOverflow (R102), or under
`OVF = wrap` the result modulo 2^64 (D3, U1). -/
def narrow (o : Overflow) (v : Int) : Except Raise Word :=
  if fits v then .ok (BitVec.ofInt 64 v)
  else
    match o with
    | .fault => .error overflowed
    | .wrap => .ok (BitVec.ofInt 64 v)

/-- `x + y` with its range check (R92, R100; also `rbase + x` of R140). -/
def aluAdd (o : Overflow) (x y : Word) : Except Raise Word := narrow o (x.toInt + y.toInt)

/-- `x * y` with its range check (R92, R101). -/
def aluMul (o : Overflow) (x y : Word) : Except Raise Word := narrow o (x.toInt * y.toInt)

/-- `x < y` as signed integers, 1 or 0 (R92, R103, R130). -/
def aluLess (x y : Word) : Word := if x.toInt < y.toInt then 1 else 0

/-- `x = y`, 1 or 0 (R92, R103, R131). -/
def aluEqual (x y : Word) : Word := if x.toInt = y.toInt then 1 else 0

/-- The condition `x != 0` of JumpIfTrue (R92, R120). -/
def condNonzero (x : Word) : Bool := decide (x.toInt ≠ 0)

/-- The condition `x = 0` of JumpIfFalse (R92, R121). -/
def condZero (x : Word) : Bool := decide (x.toInt = 0)

end Sys2Proof.Machine
end

