-- ==== Sys2Proof/WellFormed.lean ====
section
/-! DEFINITION. Which instruction terms an encoding stands for (30_encoding.md R64, R69): the one thing the syntax does
not rule out is an Immediate destination. -/

namespace Sys2Proof

/-- A destination is a memory address: Position or Relative, never Immediate (R64, R69). -/
def Param.canBeWritten (p : Param) : Bool :=
  match p.mode with
  | .position => true
  | .immediate => false
  | .relative => true

/-- An instruction is well formed when its destination parameter, if it has one, can be written (R73 test 3). -/
def Instr.wellFormed (i : Instr) : Bool :=
  match i.dest with
  | none => true
  | some p => p.canBeWritten

end Sys2Proof
end

