-- ==== Sys2Proof/Machine/Operands.lean ====
section
/-! DEFINITION. The addressing-mode resolver AMR (40_fetch_decode_resolve.md R89 to R91): operand values and destination
addresses, and the shape that the four instructions of format RRW share. -/

namespace Sys2Proof.Machine

/-- The address a parameter stands for, as an exact integer: the raw word, or `rbase + raw`, never wrapped (R89, R90,
R91); an Immediate has none. -/
def effectiveAddress (s : State) (p : Param) : Option Int :=
  match p.mode with
  | .position => some p.raw.toInt
  | .immediate => none
  | .relative => some (s.rbase.toInt + p.raw.toInt)

/-- `val(p)` (R89). -/
def val (s : State) (p : Param) : Except Raise Word :=
  match effectiveAddress s p with
  | none => .ok p.raw
  | some a => memRead s a

/-- The write to the destination, `MemWrite(dst(p), 1, v)` (R90). An Immediate parameter has no address to write. -/
def store (s : State) (p : Param) (v : Word) : Except Raise State :=
  match effectiveAddress s p with
  | none => .error badDestination
  | some a => memWrite s a v

/-- Phase X of a format RRW instruction (R100, R101, R130, R131): `val(p0)`, `val(p1)`, the result, then the one write. The
decoder has excluded an Immediate destination (phase W, R88); the meaning of such a term is the same fault, before
anything is read (log entry 11). -/
def execRRW (f : Word → Word → Except Raise Word) (p0 p1 p2 : Param) (s : State) :
    Host.Outcome State Fault Refusal :=
  if p2.canBeWritten then
    finish s (do
      let x ← val s p0
      let y ← val s p1
      let r ← f x y
      store s p2 r)
  else .next (raise s badDestination)

end Sys2Proof.Machine
end

