-- ==== Sys2Proof/Machine/Arithmetic.lean ====
section
/-! DEFINITION. Add and Multiply (41_arithmetic.md R100, R101, R102). -/

namespace Sys2Proof.Machine

/-- ADD: `dest = val(p0) + val(p1)` (R100). -/
def execAdd (p0 p1 p2 : Param) (s : State) : Host.Outcome State Fault Refusal :=
  execRRW (aluAdd s.cfg.ovf) p0 p1 p2 s

/-- MUL: `dest = val(p0) * val(p1)` (R101). -/
def execMul (p0 p1 p2 : Param) (s : State) : Host.Outcome State Fault Refusal :=
  execRRW (aluMul s.cfg.ovf) p0 p1 p2 s

end Sys2Proof.Machine
end

