-- ==== Sys2Proof/Machine/Compare.lean ====
section
/-! DEFINITION. LessThan and Equals (44_compare.md R130, R131). -/

namespace Sys2Proof.Machine

/-- LT: `dest = 1 if val(p0) < val(p1) else 0` (R130). -/
def execLt (p0 p1 p2 : Param) (s : State) : Host.Outcome State Fault Refusal :=
  execRRW (fun x y => .ok (aluLess x y)) p0 p1 p2 s

/-- EQ: `dest = 1 if val(p0) = val(p1) else 0` (R131). -/
def execEq (p0 p1 p2 : Param) (s : State) : Host.Outcome State Fault Refusal :=
  execRRW (fun x y => .ok (aluEqual x y)) p0 p1 p2 s

end Sys2Proof.Machine
end

