-- ==== Sys2Proof/Machine/Halt.lean ====
section
/-! DEFINITION. Halt (46_halt.md R145). -/

namespace Sys2Proof.Machine

/-- HLT: `status <- Halted; hcause <- HaltInstr` (R145). -/
def execHlt (s : State) : Host.Outcome State Fault Refusal := .next (haltWith s .haltInstr)

end Sys2Proof.Machine
end

