-- ==== Sys2Proof/Machine/InputOutput.lean ====
section
/-! DEFINITION. Input and Output (42_io.md R110 to R116). -/

namespace Sys2Proof.Machine

/-- IN (R110): one request; an answer is consumed, and a value is stored at the destination, whose address is computed and
checked only then (D13). With no answer ever the step waits (R112). For an Immediate destination see log entry 11: the
fault, and no request. -/
def execInput (p0 : Param) (s : State) : Host.Outcome State Fault Refusal :=
  if p0.canBeWritten then
    match requestInput s with
    | none => .next (waitOn s (.input p0))
    | some (.readFailure, t) => .next (raise t readFailed)
    | some (.parseFailure, t) => .next (raise t parseFailed)
    | some (.value v, t) => finish t (store t p0 v)
  else .next (raise s badDestination)

/-- OUT (R113): the operand is read, then the word is handed over; a sink that never takes it leaves the step waiting
(R115). -/
def execOutput (p0 : Param) (s : State) : Host.Outcome State Fault Refusal :=
  match val s p0 with
  | .error e => .next (raise s e)
  | .ok x =>
    match emitOutput s x with
    | none => .next (waitOn s (.output p0))
    | some t => .next (retire t)

end Sys2Proof.Machine
end

