-- ==== Sys2Proof/Machine/Jumps.lean ====
section
/-! DEFINITION. JumpIfTrue and JumpIfFalse (43_jumps.md R120 to R123). -/

namespace Sys2Proof.Machine

/-- Phase X of a format RR instruction: both operands are read before the condition is tested (R122); the target is
absolute and unconstrained (R123); a jump not taken leaves `ip` where phase P put it (R86). -/
def jumpIf (cond : Word → Bool) (p0 p1 : Param) (s : State) : Host.Outcome State Fault Refusal :=
  finish s (do
    let c ← val s p0
    let t ← val s p1
    .ok (if cond c then { s with ip := t } else s))

/-- JNZ: `if val(p0) != 0, ip := val(p1)` (R120). -/
def execJnz (p0 p1 : Param) (s : State) : Host.Outcome State Fault Refusal := jumpIf condNonzero p0 p1 s

/-- JZ: `if val(p0) = 0, ip := val(p1)` (R121). -/
def execJz (p0 p1 : Param) (s : State) : Host.Outcome State Fault Refusal := jumpIf condZero p0 p1 s

end Sys2Proof.Machine
end

