-- ==== Sys2Proof/Machine/RelBase.lean ====
section
/-! DEFINITION. AdjustRelativeBase (45_relbase.md R140 to R142). -/

namespace Sys2Proof.Machine

/-- ARB: `rbase += val(p0)`, the operand read with the old `rbase` (R140, R141). -/
def execArb (p0 : Param) (s : State) : Host.Outcome State Fault Refusal :=
  finish s (do
    let x ← val s p0
    let n ← aluAdd s.cfg.ovf s.rbase x
    .ok { s with rbase := n })

end Sys2Proof.Machine
end

