-- ==== Sys2Proof/Machine/Dispatch.lean ====
section
/-! DEFINITION. Phase X (40_fetch_decode_resolve.md R80): one arm per instruction. -/

namespace Sys2Proof.Machine

/-- The execute phase: `s` is the state at the end of phase W, with `a0` latched and `ip` past the instruction. -/
def exec (i : Instr) (s : State) : Host.Outcome State Fault Refusal :=
  match i with
  | .add p0 p1 p2 => Sys2Proof.Machine.execAdd p0 p1 p2 s
  | .mul p0 p1 p2 => Sys2Proof.Machine.execMul p0 p1 p2 s
  | .input p0 => Sys2Proof.Machine.execInput p0 s
  | .output p0 => Sys2Proof.Machine.execOutput p0 s
  | .jnz p0 p1 => Sys2Proof.Machine.execJnz p0 p1 s
  | .jz p0 p1 => Sys2Proof.Machine.execJz p0 p1 s
  | .lt p0 p1 p2 => Sys2Proof.Machine.execLt p0 p1 p2 s
  | .eq p0 p1 p2 => Sys2Proof.Machine.execEq p0 p1 p2 s
  | .arb p0 => Sys2Proof.Machine.execArb p0 s
  | .hlt => Sys2Proof.Machine.execHlt s

end Sys2Proof.Machine
end

