-- ==== Sys2Proof/Decode.lean ====
section
/-! DEFINITION. The instruction decoder DEC and the encoder (30_encoding.md R60 to R73, 40_fetch_decode_resolve.md R84,
R85, R88). An instruction word is read in decimal. The decoder is total on any list of words and rejects by name; the
encoder is written from the same tables. -/

namespace Sys2Proof

/-! ## The tables -/

/-- The opcode map (R66). -/
def Op.code : Op → Nat
  | .add => 1
  | .mul => 2
  | .input => 3
  | .output => 4
  | .jnz => 5
  | .jz => 6
  | .lt => 7
  | .eq => 8
  | .arb => 9
  | .hlt => 99

/-- The closed set of operations (R66). -/
def Op.all : List Op := [.add, .mul, .input, .output, .jnz, .jz, .lt, .eq, .arb, .hlt]

/-- `COUNT(OP)` (R84). -/
def Op.count : Op → Nat
  | .add => 3
  | .mul => 3
  | .input => 1
  | .output => 1
  | .jnz => 2
  | .jz => 2
  | .lt => 3
  | .eq => 3
  | .arb => 1
  | .hlt => 0

/-- The mode digits (R63). -/
def Mode.digit : Mode → Nat
  | .position => 0
  | .immediate => 1
  | .relative => 2

/-- The mode a digit selects, if any (R63). -/
def Mode.ofDigit (d : Nat) : Option Mode :=
  if d = 0 then some .position
  else if d = 1 then some .immediate
  else if d = 2 then some .relative
  else none

/-! ## The fields of an opcode word -/

/-- `digit(w, k)` of R10. -/
def decimalDigit (w k : Nat) : Nat := w / 10 ^ k % 10

/-- `w rem_t 100` of R10: the remainder of division truncating toward zero. -/
def truncRem100 (v : Int) : Int := Int.tmod v 100

/-- The opcode value of a word: `w mod 100` for `w >= 0`, `w rem_t 100` for `w < 0` (R62, D5). -/
def opcodeValue (w : Word) : Int :=
  if 0 ≤ w.toInt then w.toInt % 100 else truncRem100 w.toInt

/-- The operation an opcode value selects, if it is one of the ten (R66). -/
def Op.ofValue (v : Int) : Option Op := Op.all.find? (fun o => decide ((o.code : Int) = v))

/-- Mode digit `m_i` of an opcode word (R63). -/
def modeDigit (w : Word) (i : Nat) : Nat := decimalDigit w.toNat (2 + i)

/-- The mode digits of the first `n` parameters (R172: what a trace event carries). -/
def modeDigits (w : Word) (n : Nat) : List Nat := (List.range n).map (modeDigit w)

/-! ## The decoder -/

/-- Why a list of words, the first of them an opcode word, is no instruction. -/
inductive DecodeError where
  /-- The list is empty. Not reached by a step, which decodes only from a word it has fetched. -/
  | noOpcodeWord
  /-- The opcode value is not in the opcode map (R67). -/
  | invalidOpcode (value : Int)
  /-- The list ends before the word of parameter `index`: that word lies beyond memory (R85). -/
  | missingParameter (index : Nat)
  /-- The mode digit of one of the instruction's own parameters is above 2 (R68). -/
  | invalidAddressingMode (digit : Nat)
  /-- The destination, the last of the `count` parameters, has mode digit 1 (R69, R88). -/
  | invalidWriteDestination (count : Nat)
deriving DecidableEq, Repr

/-- Phase P for parameter `i`: the raw word first, then its mode digit (R85, D10). -/
def decodeParam (w : Word) (i : Nat) : List Word → Except DecodeError (Param × List Word)
  | [] => .error (.missingParameter i)
  | raw :: rest =>
    match Mode.ofDigit (modeDigit w i) with
    | none => .error (.invalidAddressingMode (modeDigit w i))
    | some m => .ok (⟨m, raw⟩, rest)

/-- Format `R`: one parameter, read (R64). -/
def decodeR (mk : Param → Instr) (w : Word) (ws : List Word) : Except DecodeError (Instr × List Word) := do
  let (p0, ws) ← decodeParam w 0 ws
  .ok (mk p0, ws)

/-- Format `W`: one parameter, the destination, checked in phase W (R64, R88). -/
def decodeW (mk : Param → Instr) (w : Word) (ws : List Word) : Except DecodeError (Instr × List Word) := do
  let (p0, ws) ← decodeParam w 0 ws
  if p0.canBeWritten then .ok (mk p0, ws) else .error (.invalidWriteDestination 1)

/-- Format `RR`: two parameters, read (R64). -/
def decodeRR (mk : Param → Param → Instr) (w : Word) (ws : List Word) : Except DecodeError (Instr × List Word) := do
  let (p0, ws) ← decodeParam w 0 ws
  let (p1, ws) ← decodeParam w 1 ws
  .ok (mk p0 p1, ws)

/-- Format `RRW`: two parameters read and the destination, checked in phase W (R64, R88). -/
def decodeRRW (mk : Param → Param → Param → Instr) (w : Word) (ws : List Word) :
    Except DecodeError (Instr × List Word) := do
  let (p0, ws) ← decodeParam w 0 ws
  let (p1, ws) ← decodeParam w 1 ws
  let (p2, ws) ← decodeParam w 2 ws
  if p2.canBeWritten then .ok (mk p0 p1 p2, ws) else .error (.invalidWriteDestination 3)

/-- The decoder: an opcode word and the words that follow it give an instruction and the words left over, or a rejection
by name, the first failing test of R73 and R80 (phases D, P, W) deciding. Digits above the last parameter's are not
examined (R70). -/
def decode : List Word → Except DecodeError (Instr × List Word)
  | [] => .error .noOpcodeWord
  | w :: ws =>
    match Op.ofValue (opcodeValue w) with
    | none => .error (.invalidOpcode (opcodeValue w))
    | some .add => decodeRRW .add w ws
    | some .mul => decodeRRW .mul w ws
    | some .input => decodeW .input w ws
    | some .output => decodeR .output w ws
    | some .jnz => decodeRR .jnz w ws
    | some .jz => decodeRR .jz w ws
    | some .lt => decodeRRW .lt w ws
    | some .eq => decodeRRW .eq w ws
    | some .arb => decodeR .arb w ws
    | some .hlt => .ok (.hlt, ws)

/-! ## The encoder -/

/-- The mode digits of parameters as one number, parameter 0 the units digit (R61). -/
def modeNumber : List Param → Nat
  | [] => 0
  | p :: ps => p.mode.digit + 10 * modeNumber ps

/-- The canonical opcode word `OP + 100*m0 + 1000*m1 + 10000*m2` (R73, R75). -/
def canonicalOpcode (i : Instr) : Nat := i.op.code + 100 * modeNumber i.params

/-- The words of an instruction: the canonical opcode word, then the raw words in order (R60). -/
def encode (i : Instr) : List Word := BitVec.ofNat 64 (canonicalOpcode i) :: i.raws

/-! ## Words numbered as the opcode table numbers them -/

/-- The four 64-bit words of a number, the first in its lowest 64 bits (log entry 19). -/
def tableWords (nbits w : Nat) : List Word :=
  let v := w % 2 ^ nbits
  [BitVec.ofNat 64 v, BitVec.ofNat 64 (v / 2 ^ 64), BitVec.ofNat 64 (v / 2 ^ 128), BitVec.ofNat 64 (v / 2 ^ 192)]

/-- The instruction the decoder reads from the `nbits` bits of `w`, every bit above them 0 (log entry 19). -/
def decodeTableWord (nbits w : Nat) : Option Instr :=
  match decode (tableWords nbits w) with
  | .ok (i, _) => some i
  | .error _ => none

end Sys2Proof
end

