-- ==== Sys2Proof/Machine/Fetch.lean ====
section
/-! DEFINITION. Phases B, F, D, P and W of a step (40_fetch_decode_resolve.md R80 to R88) and the trace event at their end
(60_exceptions.md R172). -/

namespace Sys2Proof.Machine

/-- The words of memory from address `a` upward, at most `n`, none at or above `cap`: what the decoder may have to read.
Reading a word that the instruction turns out not to need has no effect (R47, log entry 17). -/
def wordsFrom (m : Memory) (cap a : Nat) : Nat → List Word
  | 0 => []
  | n + 1 => if a < cap then m.read a :: wordsFrom m cap (a + 1) n else []

/-- The longest instruction (R60). -/
def maxLength : Nat := 4

/-- The opcode word at `a0` and the words that follow it, within memory. -/
def fetchWords (s : State) (a0 : Nat) : List Word := wordsFrom s.mem s.cfg.cap a0 maxLength

/-- The fault the decoder's rejection is (R67, R85, R68, R69), for an opcode word at `a0`. The empty list is not reached
after the fetch. -/
def decodeFault (a0 : Int) : DecodeError → Raise
  | .noOpcodeWord => outOfRange a0
  | .invalidOpcode v => badOpcode v
  | .missingParameter i => outOfRange (a0 + 1 + i)
  | .invalidAddressingMode d => badMode d
  | .invalidWriteDestination _ => badDestination

/-- How far `ip` has got past the opcode word when the decoder rejects: the parameters have been passed only in phase W
(R86, R161). -/
def parametersPassed : DecodeError → Nat
  | .noOpcodeWord => 0
  | .invalidOpcode _ => 0
  | .missingParameter _ => 0
  | .invalidAddressingMode _ => 0
  | .invalidWriteDestination n => n

/-- `ip` past the opcode word at `a0` and `n` parameters: `a0 + 1 + n` (R82, R86). Under R7 it never wraps (R23, log entry
16). -/
def ipAfter (a0 : Word) (n : Nat) : Word := a0 + BitVec.ofNat 64 (1 + n)

/-- One event for the trace observer, if there is one (R172). -/
def emitTrace (s : State) (e : TraceEvent) : State := { s with trace := s.trace.map (· ++ [e]) }

/-- The event of instruction `i`, decoded from opcode word `w` at `a0` (R172, D26). -/
def traceEvent (a0 w : Word) (i : Instr) : TraceEvent :=
  { a0 := a0, word := w, op := i.op.code, digits := modeDigits w i.count, instr := i }

/-- The state at the end of phase W (R80): `a0` latched, `ip` past the instruction, the instruction in the latch, the trace
event presented. -/
def decoded (s : State) (w : Word) (i : Instr) : State :=
  emitTrace { s with a0 := s.ip, ip := ipAfter s.ip i.count, latch := some i } (traceEvent s.ip w i)

/-- Phases B to W from the start of a step: the step is over with the state given (`error`), or the instruction is ready to
execute in the state given (`ok`). -/
def fetchDecode (s : State) : Except State (Instr × State) :=
  if (s.cfg.cap : Int) ≤ s.ip.toInt then .error (haltWith s .boundary)
  else
    match memRead s s.ip.toInt with
    | .error e => .error (raise { s with a0 := s.ip } e)
    | .ok w =>
      match decode (fetchWords s s.ip.toInt.toNat) with
      | .error e =>
        .error (raise { s with a0 := s.ip, ip := ipAfter s.ip (parametersPassed e) } (decodeFault s.ip.toInt e))
      | .ok (i, _) => .ok (i, decoded s w i)

/-- The address at which `placeWords` puts an instruction: where the next step fetches, or 0 if `ip` is no address with
room for the longest instruction. -/
def fetchSlot (s : State) : Nat :=
  if 0 ≤ s.ip.toInt ∧ s.ip.toInt + maxLength ≤ (s.cfg.cap : Int) then s.ip.toInt.toNat else 0

/-- The state with words put where the next step fetches, and that step made to fetch: Running, no step in progress, `ip`
at the words (log entry 14). -/
def placeWords (s : State) (ws : List Word) : State :=
  { s with
    mem := s.mem.writeAll (fetchSlot s) (ws.take (s.cfg.cap - fetchSlot s))
    ip := BitVec.ofNat 64 (fetchSlot s)
    status := .running
    latch := none }

end Sys2Proof.Machine
end

