-- ==== Sys2Proof/Machine/Step.lean ====
section
/-! DEFINITION. One step of the machine (40_fetch_decode_resolve.md R80, R83, R94). -/

namespace Sys2Proof.Machine

/-- One step. Halted and Faulted are terminal: no step is performed (R27, R83). A step that is waiting on its collaborator
goes on with the instruction in the latch (R112, R115). Otherwise phases B to W, then phase X (R80). -/
def step (s : State) : Host.Outcome State Fault Refusal :=
  match s.status with
  | .halted => .next s
  | .faulted => .next s
  | .running =>
    match s.latch with
    | some i => exec i s
    | none =>
      match fetchDecode s with
      | .error t => .next t
      | .ok (i, t) => exec i t

/-- The state with one instruction, numbered as the opcode table numbers its bits, where the next step fetches (log entries
14 and 19). -/
def State.withFetchWord (s : State) (nbits w : Nat) : State := placeWords s (tableWords nbits w)

end Sys2Proof.Machine
end

