-- ==== Sys2Proof/Machine/HostInterface.lean ====
section
/-! DEFINITION. What the outside can do to the machine (10_state.md R34, 60_exceptions.md R177, 70_reset_and_hazards.md R180
to R185): reset and load, answer an input request, take an output word, read the results. No operation writes memory or a
register of a running machine (R177, U12). -/

namespace Sys2Proof.Machine

/-- The collaborators a run begins with: parameters of the run (R32, R111, R172). -/
structure Environment where
  input : List Answer
  inputEnd : InputEnd
  sink : Sink
  observed : Bool
deriving DecidableEq, Repr

/-- Reset (R180, R182): the machine with the image in memory and everything else at its reset value. An image that breaks a
precondition of R182 is refused and the machine is not started (D24). No state of an earlier run is an argument: none
survives a reset (R180, R185). -/
def load (cfg : Config) (image : List Int) (env : Environment) : Host.Outcome State Fault Refusal :=
  if cfg.wf = false then .refused .capacityOutOfRange
  else if cfg.cap < image.length then .refused .imageTooLong
  else if image.all fits = false then .refused .imageValueOutOfRange
  else .next
    { State.reset with
      cfg := cfg
      mem := Memory.writeAll [] 0 (image.map (BitVec.ofInt 64))
      input := env.input
      inputEnd := env.inputEnd
      sink := env.sink
      trace := if env.observed then some [] else none }

/-- Reset of a machine in any state (R180): the instance stays, the run is discarded, the image is loaded again (R185). -/
def hostReset (s : State) (image : List Int) (env : Environment) : Host.Outcome State Fault Refusal :=
  load s.cfg image env

/-- The answer for an integer the collaborator has parsed: one that is no word is a ParseFailure, never truncated (R111,
D17). -/
def answerOfInt (v : Int) : Answer := if fits v then .value (BitVec.ofInt 64 v) else .parseFailure

/-- The input collaborator supplies one more answer (R111, R177). -/
def hostAnswer (s : State) (a : Answer) : State := { s with input := s.input ++ [a] }

/-- The output collaborator becomes ready to take words (R114, R177). -/
def hostAccept (s : State) : State := { s with sink := .accepting }

/-- The five status registers as numbers (R20, R27 to R29). -/
structure StatusView where
  status : BitVec 2
  hcause : BitVec 2
  fcode : BitVec 3
  fval : BitVec 65
  fpos : Word
deriving DecidableEq, Repr

/-- What the host reads at any time (R34, R177). -/
def hostStatus (s : State) : StatusView :=
  { status := s.status.code, hcause := s.hcause.code, fcode := s.fcode.code, fval := s.fval, fpos := s.fpos }

/-- The run has ended (R5): memory, `ip` and `rbase` may be read (R177, R183). -/
def ended (s : State) : Bool := decide (s.status ≠ .running)

/-- A cell of memory, read by the host after the run (R177, R183). -/
def hostReadMem (s : State) (a : Nat) : Option Word :=
  if ended s && decide (a < s.cfg.cap) then some (s.mem.read a) else none

/-- `ip`, read by the host after the run (R177, R183). -/
def hostReadIp (s : State) : Option Word := if ended s then some s.ip else none

/-- `rbase`, read by the host after the run (R177, R183). -/
def hostReadRbase (s : State) : Option Word := if ended s then some s.rbase else none

end Sys2Proof.Machine
end

