-- ==== Sys2Proof/Safety.lean ====
section
/-! DEFINITION. What a good state is, in the terms the statements use. -/

namespace Sys2Proof.Machine

/-- The payload a fault's code allows (R29, R150, R151, R152, R154). -/
def payloadOk (cap : Nat) (v : Int) : FaultCode → Prop
  | .noFault => v = 0
  | .invalidOpcode => -99 ≤ v ∧ v ≤ 98 ∧ Op.ofValue v = none
  | .invalidAddressingMode => 3 ≤ v ∧ v ≤ 9
  | .invalidWriteDestination => v = 0
  | .memoryOutOfBounds => v < 0 ∨ (cap : Int) ≤ v
  | .inputReadFailure => v = 0
  | .inputParseFailure => v = 0
  | .arithmeticOverflow => v = 0

/-- An instruction whose step can wait on a collaborator (R112, R115). -/
def waits : Instr → Bool
  | .add _ _ _ => false
  | .mul _ _ _ => false
  | .input _ => true
  | .output _ => true
  | .jnz _ _ => false
  | .jz _ _ => false
  | .lt _ _ _ => false
  | .eq _ _ _ => false
  | .arb _ => false
  | .hlt => false

/-- The invariant of the machine: what holds of every state a run can reach. -/
structure Inv (s : State) : Prop where
  /-- The capacity is one R7 allows. -/
  cfg_wf : s.cfg.wf = true
  /-- Memory is in canonical form. -/
  mem_wf : s.mem.wf = true
  /-- Memory lists no address at or above `CAP` (R40). -/
  mem_below : s.mem.below s.cfg.cap = true
  /-- `hcause` is written at the transition to Halted and never otherwise (R28). -/
  halted_iff : s.status = .halted ↔ s.hcause ≠ .none
  /-- `fcode` holds NoFault exactly while not Faulted (R29, R150). -/
  faulted_iff : s.status = .faulted ↔ s.fcode ≠ .noFault
  /-- `fval` is the exact payload of the fault (R29, R91). -/
  payload : payloadOk s.cfg.cap s.fval.toInt s.fcode
  /-- `fpos` holds 0 before a fault (R29). -/
  fpos_zero : s.fcode = .noFault → s.fpos = 0
  /-- Between steps the latch is empty (R31), but while a Running machine waits on a collaborator (R112, R115), with `ip`
  already past the two words of its instruction. -/
  latch_waits : ∀ i, s.latch = some i →
    s.status = .running ∧ waits i = true ∧ i.wellFormed = true ∧ s.ip = ipAfter s.a0 1

/-- A step is about to begin: Running, and no step in progress (R80). -/
def Ready (s : State) : Prop := s.status = .running ∧ s.latch = none

/-- The instruction the next step executes, if there is one: the one whose step is waiting, or the one the words at `ip`
decode to (R80). -/
def current (s : State) : Option Instr :=
  match s.status with
  | .halted => none
  | .faulted => none
  | .running =>
    match s.latch with
    | some i => some i
    | none =>
      if 0 ≤ s.ip.toInt ∧ s.ip.toInt < (s.cfg.cap : Int) then
        match decode (fetchWords s s.ip.toInt.toNat) with
        | .ok (i, _) => some i
        | .error _ => none
      else none

/-- `t` is `s` after a step that took the fault of code `c` and payload `v` at the opcode word in `s.ip` (R15, R158, R161):
the four registers are written, and memory, the relative base, the halt cause, the collaborators and the instance are as
they were. What `ip` holds is not said (U6). -/
structure FaultsAs (s t : State) (c : FaultCode) (v : Int) : Prop where
  status : t.status = .faulted
  fcode : t.fcode = c
  fval : t.fval.toInt = v
  fpos : t.fpos = s.ip
  mem : t.mem = s.mem
  rbase : t.rbase = s.rbase
  hcause : t.hcause = s.hcause
  input : t.input = s.input
  output : t.output = s.output
  cfg : t.cfg = s.cfg
  latch : t.latch = none

/-- Two states that differ at most in what the trace observer holds (R172). -/
def withoutTrace (s : State) : State := { s with trace := none }

end Sys2Proof.Machine
end

