-- ==== Sys2Proof/Certificates/Slice0/Obligations.lean ====
section
/-! DEFINITION. The statements for the provers. `exec i s` is phase X of instruction `i` from the state `s` at the end of
phase W (`a0` latched, `ip` already past the instruction), so an `ip` that a statement leaves alone is the address of the
next instruction. `raise`, `val`, `store`, `effectiveAddress`, `memRead` and `memWrite` are stated against the rules
themselves first; the other statements then use them. No statement rests on a value a log entry chose for State.reset. -/

open Sys2Proof Sys2Proof.Machine

/-! ## Encoding -/

/-- Words written out from the decode vectors of 95_test_vectors.md section 3 and from R73 decode to the
instructions they stand for, one for each operation. -/
def Obligations.DecodesWordsWrittenFromTheSpec : Prop :=
  decode [22201, 5, 6, 7] = .ok (.add ⟨.relative, 5⟩ ⟨.relative, 6⟩ ⟨.relative, 7⟩, []) ∧
    decode [1002, 4, 3, 4] = .ok (.mul ⟨.position, 4⟩ ⟨.immediate, 3⟩ ⟨.position, 4⟩, []) ∧
    decode [203, -1] = .ok (.input ⟨.relative, -1⟩, []) ∧
    decode [104, 7, 99] = .ok (.output ⟨.immediate, 7⟩, [99]) ∧
    decode [2105, 1, 2] = .ok (.jnz ⟨.immediate, 1⟩ ⟨.relative, 2⟩, []) ∧
    decode [1206, 0, 14] = .ok (.jz ⟨.relative, 0⟩ ⟨.immediate, 14⟩, []) ∧
    decode [21107, 3, 5, 5] = .ok (.lt ⟨.immediate, 3⟩ ⟨.immediate, 5⟩ ⟨.relative, 5⟩, []) ∧
    decode [20108, 8, 9, 5] = .ok (.eq ⟨.immediate, 8⟩ ⟨.position, 9⟩ ⟨.relative, 5⟩, []) ∧
    decode [209, 1] = .ok (.arb ⟨.relative, 1⟩, []) ∧
    decode [99, 1] = .ok (.hlt, [1])

/-- Decoding the words of any well-formed instruction gives it back, with every operand at every value, and leaves
the words that follow (R60, R61, R63, R65, R73, R75). -/
def Obligations.DecodeInvertsEncode : Prop :=
  ∀ (i : Instr) (rest : List Word), i.wellFormed = true → decode (encode i ++ rest) = .ok (i, rest)

/-- A word list decodes to an instruction only if its opcode word is non-negative, agrees with the instruction's
canonical opcode word in every digit that is examined, and is followed by the instruction's raw words (R60, R61,
R70, R73). -/
def Obligations.DecodedInstructionIsItsWords : Prop :=
  ∀ (w : Word) (ws rest : List Word) (i : Instr), decode (w :: ws) = .ok (i, rest) →
    0 ≤ w.toInt ∧ i.wellFormed = true ∧ ws = i.raws ++ rest ∧ w.toNat % 10 ^ (2 + i.count) = canonicalOpcode i

/-- R70: two non-negative opcode words that agree in the opcode digits and the mode digits of the instruction's own
parameters decode alike, whatever the digits above hold. -/
def Obligations.DigitsAboveTheParametersAreIgnored : Prop :=
  ∀ (w w' : Word) (ws : List Word) (o : Op), 0 ≤ w.toInt → 0 ≤ w'.toInt → Op.ofValue (opcodeValue w) = some o →
    w'.toNat % 10 ^ (2 + o.count) = w.toNat % 10 ^ (2 + o.count) → decode (w' :: ws) = decode (w :: ws)

/-! ## Memory -/

/-- R42, R43: an access inside `0 .. CAP-1` reads the cell, or changes that cell and nothing else; an access
outside raises MemoryOutOfBounds with its index, and then there is no changed state. -/
def Obligations.MemoryAccessIsBoundsChecked : Prop :=
  ∀ (s : State) (v : Word),
    (∀ n : Nat, n < s.cfg.cap → memRead s (n : Int) = .ok (s.mem.read n)) ∧
    (∀ a : Int, a < 0 ∨ (s.cfg.cap : Int) ≤ a → memRead s a = .error ⟨.memoryOutOfBounds, a⟩) ∧
    (∀ n : Nat, n < s.cfg.cap → ∃ t, memWrite s (n : Int) v = .ok t ∧ t.mem.read n = v ∧
      (∀ b, b ≠ n → t.mem.read b = s.mem.read b) ∧ t = { s with mem := t.mem }) ∧
    (∀ a : Int, a < 0 ∨ (s.cfg.cap : Int) ≤ a → memWrite s a v = .error ⟨.memoryOutOfBounds, a⟩)

/-- The canonical form, the model's own (log entry 1), is one for each content: two memories in it that read alike
at every address are equal data. -/
def Obligations.CanonicalMemoriesThatReadAlikeAreEqual : Prop :=
  ∀ m m' : Memory, m.wf = true → m'.wf = true → (∀ a, m.read a = m'.read a) → m = m'

/-! ## Operands -/

/-- R89: an Immediate operand is its raw word; a Position operand is the cell at the raw word; a Relative operand
is the cell at `rbase + raw`; an address outside memory raises MemoryOutOfBounds with it. -/
def Obligations.OperandValueByMode : Prop :=
  ∀ (s : State) (r : Word),
    val s ⟨.immediate, r⟩ = .ok r ∧
    (∀ n : Nat, r.toInt = n → n < s.cfg.cap → val s ⟨.position, r⟩ = .ok (s.mem.read n)) ∧
    (r.toInt < 0 ∨ (s.cfg.cap : Int) ≤ r.toInt → val s ⟨.position, r⟩ = .error ⟨.memoryOutOfBounds, r.toInt⟩) ∧
    (∀ n : Nat, s.rbase.toInt + r.toInt = n → n < s.cfg.cap → val s ⟨.relative, r⟩ = .ok (s.mem.read n)) ∧
    (s.rbase.toInt + r.toInt < 0 ∨ (s.cfg.cap : Int) ≤ s.rbase.toInt + r.toInt →
      val s ⟨.relative, r⟩ = .error ⟨.memoryOutOfBounds, s.rbase.toInt + r.toInt⟩)

/-- R90: a destination is the raw word (Position) or `rbase + raw` (Relative); the cell there is written, nothing else
changes, and an address outside memory raises MemoryOutOfBounds with it. -/
def Obligations.DestinationIsWrittenAtItsAddress : Prop :=
  ∀ (s : State) (r v : Word) (m : Mode) (a : Int),
    (m = .position ∧ a = r.toInt ∨ m = .relative ∧ a = s.rbase.toInt + r.toInt) →
    (∀ n : Nat, a = n → n < s.cfg.cap → ∃ t, store s ⟨m, r⟩ v = .ok t ∧ t.mem.read n = v ∧
      (∀ b, b ≠ n → t.mem.read b = s.mem.read b) ∧ t = { s with mem := t.mem }) ∧
    (a < 0 ∨ (s.cfg.cap : Int) ≤ a → store s ⟨m, r⟩ v = .error ⟨.memoryOutOfBounds, a⟩)

/-- R91: a Relative address is the exact sum of two words, so it lies in `-2^64 .. 2^64 - 2`. A sum inside memory
is the address of the cell read or written; any sum outside is MemoryOutOfBounds, for an operand and for a
destination, never a wrapped address and never an overflow, and `fval` then holds the exact sum. -/
def Obligations.RelativeAddressNeverWraps : Prop :=
  ∀ (s : State) (r v : Word),
    (-18446744073709551616 ≤ s.rbase.toInt + r.toInt ∧ s.rbase.toInt + r.toInt ≤ 18446744073709551614) ∧
    (∀ n : Nat, s.rbase.toInt + r.toInt = n → n < s.cfg.cap →
      val s ⟨.relative, r⟩ = .ok (s.mem.read n) ∧
      ∃ t, store s ⟨.relative, r⟩ v = .ok t ∧ t.mem.read n = v ∧ (∀ b, b ≠ n → t.mem.read b = s.mem.read b)) ∧
    (s.rbase.toInt + r.toInt < 0 ∨ (s.cfg.cap : Int) ≤ s.rbase.toInt + r.toInt →
      val s ⟨.relative, r⟩ = .error ⟨.memoryOutOfBounds, s.rbase.toInt + r.toInt⟩ ∧
      store s ⟨.relative, r⟩ v = .error ⟨.memoryOutOfBounds, s.rbase.toInt + r.toInt⟩ ∧
      (raise s ⟨.memoryOutOfBounds, s.rbase.toInt + r.toInt⟩).fval.toInt = s.rbase.toInt + r.toInt)

/-! ## Taking a fault -/

/-- R15, R161: `raise F(v)` writes status, fcode, fval and fpos, the step is over, and everything else keeps its
value. -/
def Obligations.FaultEntryWritesFourRegisters : Prop :=
  ∀ (s : State) (c : FaultCode) (v : Int),
    raise s ⟨c, v⟩ =
      { s with status := .faulted, fcode := c, fval := BitVec.ofInt 65 v, fpos := s.a0, latch := none }

/-- R158: on every fault `fpos` is the value `ip` had when the faulting step began; for a step that has been
waiting on its collaborator, the address of the opcode word latched when it began. For the fetch fault `fval` is
that address too. -/
def Obligations.FaultPositionIsWhereTheStepBegan : Prop :=
  ∀ s t : State, s.status = .running → step s = .next t → t.status = .faulted →
    (s.latch = none → t.fpos = s.ip) ∧ (∀ i, s.latch = some i → t.fpos = s.a0) ∧
      (s.latch = none → s.ip.toInt < 0 → t.fval.toInt = s.ip.toInt)

/-- R161: a faulting step never changes memory or the relative base, emits nothing, and leaves the halt cause and the
instance as they were. -/
def Obligations.FaultingStepChangesNoMemory : Prop :=
  ∀ s t : State, s.status = .running → step s = .next t → t.status = .faulted →
    t.mem = s.mem ∧ t.rbase = s.rbase ∧ t.output = s.output ∧ t.hcause = s.hcause ∧ t.cfg = s.cfg ∧
      t.fcode ≠ .noFault ∧ t.latch = none

/-- R161's table of `ip` in the Faulted state: `a0` after a fault of the fetch, `a0 + 1` after one of phases D and
P, and `a0 + 1 + count` after one of phases W and X. U6 recommends that no claim about a program depend on it; no
other statement here does. -/
def Obligations.FaultLeavesIpWhereTheStepHadGot : Prop :=
  ∀ s t : State, Ready s → step s = .next t → t.status = .faulted →
    (s.ip.toInt < 0 → t.ip = s.ip) ∧
    (∀ n : Nat, s.ip.toInt = n → n < s.cfg.cap →
      (∀ v, decode (fetchWords s n) = .error (.invalidOpcode v) → t.ip = s.ip + 1) ∧
      (∀ k, decode (fetchWords s n) = .error (.missingParameter k) → t.ip = s.ip + 1) ∧
      (∀ d, decode (fetchWords s n) = .error (.invalidAddressingMode d) → t.ip = s.ip + 1) ∧
      (∀ k o, Op.ofValue (opcodeValue (s.mem.read n)) = some o →
        decode (fetchWords s n) = .error (.invalidWriteDestination k) →
        t.ip = s.ip + 1 + BitVec.ofNat 64 o.count) ∧
      (∀ i rest, decode (fetchWords s n) = .ok (i, rest) → t.ip = s.ip + 1 + BitVec.ofNat 64 i.count))

/-! ## Phases B to W of a step -/

/-- A step runs the decoded instruction: when the words at `ip` decode to `i`, the step is phase X of `i` from the
state in which `a0` is latched, `ip` is past the instruction, the latch holds it, and a trace observer has been
shown it (R80, R82, R86, R172). A step that is waiting on its collaborator goes on with the instruction in the
latch, and fetches nothing (R112, R115; log entry 8). -/
def Obligations.StepRunsTheDecodedInstruction : Prop :=
  (∀ (s : State) (i : Instr), s.status = .running → s.latch = some i → step s = exec i s) ∧
  ∀ (s : State) (n : Nat) (i : Instr) (rest : List Word),
    Ready s → s.ip.toInt = n → n < s.cfg.cap → decode (fetchWords s n) = .ok (i, rest) →
    step s = exec i
      { s with
        a0 := s.ip
        ip := s.ip + BitVec.ofNat 64 (1 + i.count)
        latch := some i
        trace := s.trace.map (· ++ [⟨s.ip, s.mem.read n, i.op.code, modeDigits (s.mem.read n) i.count, i⟩]) }

/-- The same from memory's contents: when the cells from `ip` on hold the words of a well-formed instruction, the
step runs exactly that instruction. -/
def Obligations.StepRunsTheEncodedInstruction : Prop :=
  ∀ (s : State) (n : Nat) (i : Instr),
    Ready s → s.ip.toInt = n → i.wellFormed = true → n + (1 + i.count) ≤ s.cfg.cap →
    (∀ k, k < 1 + i.count → (encode i)[k]? = some (s.mem.read (n + k))) →
    ∃ trace, step s = exec i
      { s with a0 := s.ip, ip := s.ip + BitVec.ofNat 64 (1 + i.count), latch := some i, trace := trace }

/-- R81: a step that finds `ip >= CAP` halts the machine with cause Boundary and changes nothing else. -/
def Obligations.BoundaryEndsTheRun : Prop :=
  ∀ s : State, Ready s → (s.cfg.cap : Int) ≤ s.ip.toInt →
    step s = .next { s with status := .halted, hcause := .boundary }

/-- A step that finds `ip < 0` faults with MemoryOutOfBounds(ip), and `ip` stays (R82, R123, R154). -/
def Obligations.NegativeIpFaultsAtTheFetch : Prop :=
  ∀ s : State, Ready s → s.ip.toInt < 0 →
    ∃ t, step s = .next t ∧ FaultsAs s t .memoryOutOfBounds s.ip.toInt ∧ t.ip = s.ip

/-- R67: an opcode word that is negative, or whose two low digits are not one of the ten opcodes, faults with
InvalidOpcode, and `fval` is the opcode value, for a negative word the truncating remainder (R62, R151). U2
recommends that no claim about a program depend on the number reported for a negative word. -/
def Obligations.IllegalOpcodeFaults : Prop :=
  ∀ (s : State) (n : Nat), Ready s → s.ip.toInt = n → n < s.cfg.cap →
    ((s.mem.read n).toInt < 0 ∨
      (s.mem.read n).toInt % 100 ∉ ([1, 2, 3, 4, 5, 6, 7, 8, 9, 99] : List Int)) →
    ∃ t, step s = .next t ∧ FaultsAs s t .invalidOpcode (Int.tmod (s.mem.read n).toInt 100)

/-- R68: a mode digit above 2 of one of the instruction's own parameters faults with InvalidAddressingMode and that
digit, the lowest such parameter being the one reported, when the parameter words up to it lie in memory. -/
def Obligations.IllegalModeDigitFaults : Prop :=
  ∀ (s : State) (n k : Nat) (o : Op), Ready s → s.ip.toInt = n →
    0 ≤ (s.mem.read n).toInt → (s.mem.read n).toInt % 100 = o.code → k < o.count → n + 1 + k < s.cfg.cap →
    (∀ j, j < k → (s.mem.read n).toNat / 10 ^ (2 + j) % 10 ≤ 2) → 2 < (s.mem.read n).toNat / 10 ^ (2 + k) % 10 →
    ∃ t, step s = .next t ∧ FaultsAs s t .invalidAddressingMode ((s.mem.read n).toNat / 10 ^ (2 + k) % 10 : Nat)

/-- A parameter word that lies beyond memory faults with MemoryOutOfBounds and its address, before its own mode
digit is looked at (R85, R93, R160); the first such word is at `CAP`. -/
def Obligations.MissingParameterWordFaults : Prop :=
  ∀ (s : State) (n k : Nat) (o : Op), Ready s → s.cfg.wf = true → s.ip.toInt = n →
    0 ≤ (s.mem.read n).toInt → (s.mem.read n).toInt % 100 = o.code → k < o.count → n + 1 + k = s.cfg.cap →
    (∀ j, j < k → (s.mem.read n).toNat / 10 ^ (2 + j) % 10 ≤ 2) →
    ∃ t, step s = .next t ∧ FaultsAs s t .memoryOutOfBounds (n + 1 + k : Nat)

/-- R88: an instruction with a destination parameter tagged Immediate faults with InvalidWriteDestination at
decode, once its parameter words have been fetched and its mode digits accepted: no operand read, no answer
consumed, nothing written. -/
def Obligations.ImmediateDestinationFaultsAtDecode : Prop :=
  ∀ (s : State) (n d : Nat) (o : Op), Ready s → s.ip.toInt = n →
    0 ≤ (s.mem.read n).toInt → (s.mem.read n).toInt % 100 = o.code → n + o.count < s.cfg.cap →
    ((o = .add ∨ o = .mul ∨ o = .lt ∨ o = .eq) ∧ d = 2 ∨ o = .input ∧ d = 0) →
    (∀ j, j < o.count → (s.mem.read n).toNat / 10 ^ (2 + j) % 10 ≤ 2) → (s.mem.read n).toNat / 10 ^ (2 + d) % 10 = 1 →
    ∃ t, step s = .next t ∧ FaultsAs s t .invalidWriteDestination 0

/-! ## Arithmetic and comparison -/

/-- ADD completes: where the operands can be read, the destination is in memory and the exact sum fits, that cell
holds the sum afterwards and nothing else has changed (R100). -/
def Obligations.AddStoresTheExactSum : Prop :=
  ∀ (s : State) (p0 p1 p2 : Param) (x y : Word) (a : Nat),
    val s p0 = .ok x → val s p1 = .ok y → effectiveAddress s p2 = some (a : Int) → a < s.cfg.cap →
    fits (x.toInt + y.toInt) = true →
    ∃ t, exec (.add p0 p1 p2) s = .next t ∧ (t.mem.read a).toInt = x.toInt + y.toInt ∧
      (∀ b, b ≠ a → t.mem.read b = s.mem.read b) ∧ t = { s with mem := t.mem, latch := none }

/-- MUL completes: the same for the exact product (R101). -/
def Obligations.MulStoresTheExactProduct : Prop :=
  ∀ (s : State) (p0 p1 p2 : Param) (x y : Word) (a : Nat),
    val s p0 = .ok x → val s p1 = .ok y → effectiveAddress s p2 = some (a : Int) → a < s.cfg.cap →
    fits (x.toInt * y.toInt) = true →
    ∃ t, exec (.mul p0 p1 p2) s = .next t ∧ (t.mem.read a).toInt = x.toInt * y.toInt ∧
      (∀ b, b ≠ a → t.mem.read b = s.mem.read b) ∧ t = { s with mem := t.mem, latch := none }

/-- LT completes: the destination cell holds 1 if the first operand is less than the second as signed integers,
else 0, and nothing else has changed (R130). -/
def Obligations.LtStoresTheComparison : Prop :=
  ∀ (s : State) (p0 p1 p2 : Param) (x y : Word) (a : Nat),
    val s p0 = .ok x → val s p1 = .ok y → effectiveAddress s p2 = some (a : Int) → a < s.cfg.cap →
    ∃ t, exec (.lt p0 p1 p2) s = .next t ∧ (t.mem.read a).toInt = (if x.toInt < y.toInt then 1 else 0) ∧
      (∀ b, b ≠ a → t.mem.read b = s.mem.read b) ∧ t = { s with mem := t.mem, latch := none }

/-- EQ completes: the destination cell holds 1 if the operands are the same word, else 0, and nothing else has changed
(R131). -/
def Obligations.EqStoresTheComparison : Prop :=
  ∀ (s : State) (p0 p1 p2 : Param) (x y : Word) (a : Nat),
    val s p0 = .ok x → val s p1 = .ok y → effectiveAddress s p2 = some (a : Int) → a < s.cfg.cap →
    ∃ t, exec (.eq p0 p1 p2) s = .next t ∧ (t.mem.read a).toInt = (if x = y then 1 else 0) ∧
      (∀ b, b ≠ a → t.mem.read b = s.mem.read b) ∧ t = { s with mem := t.mem, latch := none }

/-- R104: for each ADD or MUL a step executes whose operands can be read, whose destination is in memory and whose
result fits, the destination cell holds the result of the operand values in the state in which the step began, and
no other cell differs, even where the destination is one of the instruction's own words. -/
def Obligations.ArithmeticUsesTheStateTheStepBeganIn : Prop :=
  ∀ (s : State) (n a : Nat) (i : Instr) (rest : List Word) (p0 p1 p2 : Param) (x y : Word) (v : Int),
    (i = .add p0 p1 p2 ∧ v = x.toInt + y.toInt ∨ i = .mul p0 p1 p2 ∧ v = x.toInt * y.toInt) →
    Ready s → s.ip.toInt = n → n < s.cfg.cap → decode (fetchWords s n) = .ok (i, rest) →
    val s p0 = .ok x → val s p1 = .ok y → effectiveAddress s p2 = some (a : Int) → a < s.cfg.cap → fits v = true →
    ∃ t, step s = .next t ∧ (t.mem.read a).toInt = v ∧ (∀ b, b ≠ a → t.mem.read b = s.mem.read b) ∧
      t.ip = s.ip + 4 ∧ t.rbase = s.rbase ∧ t.status = .running ∧ t.latch = none

/-- R102: where the exact result of ADD or MUL, or of ARB's addition, does not fit a word, the instruction faults with
ArithmeticOverflow and payload 0, and nothing is written. For an instance whose OVF is `fault`, the spec's default. -/
def Obligations.OverflowIsAFault : Prop :=
  ∀ (s : State) (p0 p1 p2 : Param) (x y : Word), s.cfg.ovf = .fault → val s p0 = .ok x →
    (val s p1 = .ok y → p2.canBeWritten = true → ¬ fits (x.toInt + y.toInt) = true →
      exec (.add p0 p1 p2) s = .next
        { s with status := .faulted, fcode := .arithmeticOverflow, fval := 0, fpos := s.a0, latch := none }) ∧
    (val s p1 = .ok y → p2.canBeWritten = true → ¬ fits (x.toInt * y.toInt) = true →
      exec (.mul p0 p1 p2) s = .next
        { s with status := .faulted, fcode := .arithmeticOverflow, fval := 0, fpos := s.a0, latch := none }) ∧
    (¬ fits (s.rbase.toInt + x.toInt) = true →
      exec (.arb p0) s = .next
        { s with status := .faulted, fcode := .arithmeticOverflow, fval := 0, fpos := s.a0, latch := none })

/-- The alternative D3 and U1 let a model offer, for an instance whose OVF is `wrap`: ADD, MUL and ARB never
overflow, and the stored word is the exact result reduced modulo 2^64 (log entry 3: not the spec's default). -/
def Obligations.WrapStoresTheResultModuloTwoPow64 : Prop :=
  ∀ (s : State) (p0 p1 p2 : Param) (x y : Word) (a : Nat), s.cfg.ovf = .wrap → val s p0 = .ok x →
    (val s p1 = .ok y → effectiveAddress s p2 = some (a : Int) → a < s.cfg.cap →
      ∃ t, exec (.add p0 p1 p2) s = .next t ∧
        (t.mem.read a).toInt % 18446744073709551616 = (x.toInt + y.toInt) % 18446744073709551616 ∧
        (∀ b, b ≠ a → t.mem.read b = s.mem.read b) ∧ t = { s with mem := t.mem, latch := none }) ∧
    (val s p1 = .ok y → effectiveAddress s p2 = some (a : Int) → a < s.cfg.cap →
      ∃ t, exec (.mul p0 p1 p2) s = .next t ∧
        (t.mem.read a).toInt % 18446744073709551616 = (x.toInt * y.toInt) % 18446744073709551616 ∧
        (∀ b, b ≠ a → t.mem.read b = s.mem.read b) ∧ t = { s with mem := t.mem, latch := none }) ∧
    (∃ t, exec (.arb p0) s = .next t ∧
      t.rbase.toInt % 18446744073709551616 = (s.rbase.toInt + x.toInt) % 18446744073709551616 ∧
      t = { s with rbase := t.rbase, latch := none })

/-- The faults of the four instructions of format RRW in their order (R93, R100, R101, R130, R131): a destination
that is Immediate (a term the decoder gives to no word, so the clause is the model's, log entry 11); the first
operand's address, then the second's; and, the result being a word, the destination's. -/
def Obligations.FormatRRWFaultsInOrder : Prop :=
  ∀ (mk : Param → Param → Param → Instr) (s : State) (p0 p1 p2 : Param),
    (mk = .add ∨ mk = .mul ∨ mk = .lt ∨ mk = .eq) →
    (p2.mode = .immediate → exec (mk p0 p1 p2) s = .next (raise s ⟨.invalidWriteDestination, 0⟩)) ∧
    (p2.mode ≠ .immediate →
      (∀ a : Int, effectiveAddress s p0 = some a → a < 0 ∨ (s.cfg.cap : Int) ≤ a →
        exec (mk p0 p1 p2) s = .next (raise s ⟨.memoryOutOfBounds, a⟩)) ∧
      (∀ (x : Word) (a : Int), val s p0 = .ok x → effectiveAddress s p1 = some a → a < 0 ∨ (s.cfg.cap : Int) ≤ a →
        exec (mk p0 p1 p2) s = .next (raise s ⟨.memoryOutOfBounds, a⟩)) ∧
      (∀ (x y : Word) (a : Int), val s p0 = .ok x → val s p1 = .ok y →
        (mk = .add → fits (x.toInt + y.toInt) = true) → (mk = .mul → fits (x.toInt * y.toInt) = true) →
        effectiveAddress s p2 = some a → a < 0 ∨ (s.cfg.cap : Int) ≤ a →
        exec (mk p0 p1 p2) s = .next (raise s ⟨.memoryOutOfBounds, a⟩)))

/-! ## Input and output -/

/-- IN completes: a value the collaborator answers is stored at the destination, one answer is consumed, and
nothing else has changed (R110, R111). -/
def Obligations.InStoresTheAnswer : Prop :=
  ∀ (s : State) (p0 : Param) (v : Word) (rest : List Answer) (a : Nat),
    s.input = .value v :: rest → effectiveAddress s p0 = some (a : Int) → a < s.cfg.cap →
    ∃ t, exec (.input p0) s = .next t ∧ t.mem.read a = v ∧ (∀ b, b ≠ a → t.mem.read b = s.mem.read b) ∧
      t = { s with input := rest, mem := t.mem, latch := none }

/-- The faults of IN (R110, R111, R155): ReadFailure and ParseFailure, each consuming its answer; ReadFailure of a
scripted sequence that has run out; a destination out of bounds, its item already consumed; and an Immediate
destination, nothing consumed (a term the decoder gives to no word, so the clause is the model's, log entry 11). -/
def Obligations.InFaults : Prop :=
  ∀ (s : State) (p0 : Param),
    (p0.mode = .immediate → exec (.input p0) s = .next (raise s ⟨.invalidWriteDestination, 0⟩)) ∧
    (p0.mode ≠ .immediate →
      (∀ rest, s.input = .readFailure :: rest →
        exec (.input p0) s = .next (raise { s with input := rest } ⟨.inputReadFailure, 0⟩)) ∧
      (∀ rest, s.input = .parseFailure :: rest →
        exec (.input p0) s = .next (raise { s with input := rest } ⟨.inputParseFailure, 0⟩)) ∧
      (s.input = [] → s.inputEnd = .readFailure →
        exec (.input p0) s = .next (raise s ⟨.inputReadFailure, 0⟩)) ∧
      (∀ (v : Word) (rest : List Answer) (a : Int), s.input = .value v :: rest → effectiveAddress s p0 = some a →
        a < 0 ∨ (s.cfg.cap : Int) ≤ a →
        exec (.input p0) s = .next (raise { s with input := rest } ⟨.memoryOutOfBounds, a⟩)))

/-- R112: an IN whose collaborator never answers waits: the machine stays Running, nothing else happens, and every
later step is the same; a value answered then lets the step finish, storing it. That a wait is a state with the instruction
in the latch is the model's form of it (log entry 8). -/
def Obligations.InWaitsForItsAnswer : Prop :=
  ∀ (s : State) (p0 : Param), s.status = .running → p0.mode ≠ .immediate → s.input = [] → s.inputEnd = .silent →
    exec (.input p0) s = .next { s with latch := some (.input p0) } ∧
    step { s with latch := some (.input p0) } = .next { s with latch := some (.input p0) } ∧
    (∀ (v : Word) (a : Nat), effectiveAddress s p0 = some (a : Int) → a < s.cfg.cap →
      ∃ t, step (hostAnswer { s with latch := some (.input p0) } (.value v)) = .next t ∧ t.mem.read a = v ∧
        (∀ b, b ≠ a → t.mem.read b = s.mem.read b) ∧ t = { s with mem := t.mem, latch := none })

/-- R111: an integer outside `WMIN .. WMAX` is a ParseFailure, never a truncated value; any other is delivered as
it is. -/
def Obligations.InputIntegerIsNeverTruncated : Prop :=
  ∀ v : Int,
    (WMIN ≤ v ∧ v ≤ WMAX → ∃ w : Word, answerOfInt v = .value w ∧ w.toInt = v) ∧
    (v < WMIN ∨ WMAX < v → answerOfInt v = .parseFailure)

/-- OUT completes: where the operand can be read and the sink takes the word, the output sequence has the operand's
word at its end, unchanged, and nothing else has changed (R113, R114). -/
def Obligations.OutEmitsItsOperand : Prop :=
  ∀ (s : State) (p0 : Param) (x : Word), val s p0 = .ok x → s.sink = .accepting →
    exec (.output p0) s = .next { s with output := s.output ++ [x], latch := none }

/-- R115: an OUT whose sink never takes the word waits: the machine stays Running, nothing is emitted, every later
step is the same, and the step finishes when the sink takes the word. The form of the wait is the model's (log
entry 8). -/
def Obligations.OutWaitsForItsSink : Prop :=
  ∀ (s : State) (p0 : Param) (x : Word), s.status = .running → val s p0 = .ok x → s.sink = .stalled →
    exec (.output p0) s = .next { s with latch := some (.output p0) } ∧
    step { s with latch := some (.output p0) } = .next { s with latch := some (.output p0) } ∧
    step (hostAccept { s with latch := some (.output p0) }) =
      .next { s with sink := .accepting, output := s.output ++ [x], latch := none }

/-! ## Control transfer, relative base, halt -/

/-- JNZ completes: both operands read, `ip` is the second where the first is not 0, else it stays past the
instruction; nothing else has changed (R120). -/
def Obligations.JnzJumpsOnNonzero : Prop :=
  ∀ (s : State) (p0 p1 : Param) (c t : Word), val s p0 = .ok c → val s p1 = .ok t →
    exec (.jnz p0 p1) s = .next { s with ip := if c = 0 then s.ip else t, latch := none }

/-- JZ completes: the mirror of JNZ (R121). -/
def Obligations.JzJumpsOnZero : Prop :=
  ∀ (s : State) (p0 p1 : Param) (c t : Word), val s p0 = .ok c → val s p1 = .ok t →
    exec (.jz p0 p1) s = .next { s with ip := if c = 0 then t else s.ip, latch := none }

/-- The operand faults of the formats RR and R (R93, R113, R120, R121, R140): the first operand's address, then for
a jump the second's, which is read even when the jump is not taken (R122); nothing is emitted, jumped to or added. -/
def Obligations.ReadingInstructionsFaultInOrder : Prop :=
  ∀ (s : State) (p0 p1 : Param) (a : Int), a < 0 ∨ (s.cfg.cap : Int) ≤ a →
    (effectiveAddress s p0 = some a →
      exec (.jnz p0 p1) s = .next (raise s ⟨.memoryOutOfBounds, a⟩) ∧
      exec (.jz p0 p1) s = .next (raise s ⟨.memoryOutOfBounds, a⟩) ∧
      exec (.output p0) s = .next (raise s ⟨.memoryOutOfBounds, a⟩) ∧
      exec (.arb p0) s = .next (raise s ⟨.memoryOutOfBounds, a⟩)) ∧
    (∀ c : Word, val s p0 = .ok c → effectiveAddress s p1 = some a →
      exec (.jnz p0 p1) s = .next (raise s ⟨.memoryOutOfBounds, a⟩) ∧
      exec (.jz p0 p1) s = .next (raise s ⟨.memoryOutOfBounds, a⟩))

/-- ARB completes: where the operand can be read and the exact sum fits, the relative base is the sum afterwards
and nothing else has changed (R140). -/
def Obligations.ArbAddsToTheRelativeBase : Prop :=
  ∀ (s : State) (p0 : Param) (x : Word), val s p0 = .ok x → fits (s.rbase.toInt + x.toInt) = true →
    ∃ t, exec (.arb p0) s = .next t ∧ t.rbase.toInt = s.rbase.toInt + x.toInt ∧
      t = { s with rbase := t.rbase, latch := none }

/-- R141: a Relative operand of ARB is read with the relative base of before. -/
def Obligations.ArbReadsItsOperandWithTheOldBase : Prop :=
  ∀ (s : State) (r : Word) (a : Nat), s.rbase.toInt + r.toInt = a → a < s.cfg.cap →
    fits (s.rbase.toInt + (s.mem.read a).toInt) = true →
    ∃ t, exec (.arb ⟨.relative, r⟩) s = .next t ∧ t.rbase.toInt = s.rbase.toInt + (s.mem.read a).toInt

/-- HLT completes: the machine is Halted with cause HaltInstr, and nothing else has changed (R145). -/
def Obligations.HltHaltsTheMachine : Prop :=
  ∀ s : State, exec .hlt s = .next { s with status := .halted, hcause := .haltInstr, latch := none }

/-! ## Rules about every step -/

/-- The model refuses nothing: every step of every state answers a next state (R71, R94, R161). That a fault is a
next state, and that a Halted or Faulted machine's step answers the same state, is the model's form of it (log
entries 5 and 6). -/
def Obligations.EveryStepAnswersANextState : Prop := ∀ s : State, ∃ t, step s = .next t

/-- A machine that is Halted or Faulted performs no step, however often it is asked to (R27, R83, R165): its state
stays as it is (log entry 6). -/
def Obligations.EndedMachineNeverMoves : Prop :=
  ∀ (s : State) (k : Nat), s.status ≠ .running → Sys2Proof.core.run k s = .next s

/-- A Running machine becomes Halted only by the boundary, with cause Boundary, or by executing Halt, with cause
HaltInstr (R27, R28, R83). -/
def Obligations.HaltedOnlyByHaltOrBoundary : Prop :=
  ∀ s t : State, s.status = .running → step s = .next t → t.status = .halted →
    (t.hcause = .boundary ∧ s.latch = none ∧ (s.cfg.cap : Int) ≤ s.ip.toInt) ∨
      (t.hcause = .haltInstr ∧ current s = some .hlt)

/-- R24: no step but one that executes ARB changes the relative base. -/
def Obligations.OnlyArbChangesTheRelativeBase : Prop :=
  ∀ s t : State, step s = .next t → t.rbase ≠ s.rbase → ∃ p, current s = some (.arb p)

/-- A step changes at most one cell of memory, and only the destination cell of the writing instruction it executes
(R36, R44). -/
def Obligations.OnlyTheDestinationCellChanges : Prop :=
  ∀ s t : State, step s = .next t → ∀ b : Nat, t.mem.read b ≠ s.mem.read b →
    ∃ i p, current s = some i ∧ i.dest = some p ∧ effectiveAddress s p = some (b : Int) ∧ b < s.cfg.cap

/-- Only OUT emits, one word, at the end of the output sequence; only IN consumes an answer, the next one (R36,
R56, R116). -/
def Obligations.OnlyInAndOutMeetTheCollaborators : Prop :=
  ∀ s t : State, step s = .next t →
    (t.output ≠ s.output → ∃ p x, current s = some (.output p) ∧ val s p = .ok x ∧ t.output = s.output ++ [x]) ∧
    (t.input ≠ s.input → ∃ p a, current s = some (.input p) ∧ s.input = a :: t.input)

/-- R7 and R32: no step changes the instance or what the collaborators are. -/
def Obligations.NoStepChangesTheInstance : Prop :=
  ∀ s t : State, step s = .next t → t.cfg = s.cfg ∧ t.inputEnd = s.inputEnd ∧ t.sink = s.sink

/-- R22: an instruction that is no jump and does not fault leaves `ip` at the address after its words, without
wrapping. -/
def Obligations.IpAdvancesPastTheInstruction : Prop :=
  ∀ (s t : State) (n : Nat) (i : Instr) (rest : List Word), Ready s → s.cfg.wf = true → s.ip.toInt = n → n < s.cfg.cap →
    decode (fetchWords s n) = .ok (i, rest) → (∀ p0 p1, i ≠ .jnz p0 p1 ∧ i ≠ .jz p0 p1) →
    step s = .next t → t.status ≠ .faulted → t.ip.toInt = n + 1 + i.count

/-- R50, R191: a store is seen by the very next fetch. An ADD that stores 99 into the cell after it is followed by
a step that executes Halt, whatever that cell held before (the source's first example, X1). -/
def Obligations.StoredOpcodeWordIsExecutedNext : Prop :=
  ∀ (s : State) (n : Nat) (p0 p1 p2 : Param) (x y : Word) (rest : List Word),
    Ready s → s.cfg.wf = true → s.ip.toInt = n → n + 4 < s.cfg.cap →
    decode (fetchWords s n) = .ok (.add p0 p1 p2, rest) →
    val s p0 = .ok x → val s p1 = .ok y → effectiveAddress s p2 = some ((n + 4 : Nat) : Int) → x.toInt + y.toInt = 99 →
    ∃ t u, step s = .next t ∧ step t = .next u ∧ u.status = .halted ∧ u.hcause = .haltInstr ∧
      u.ip.toInt = n + 5

/-- The invariant: every step from a state that meets it gives a state that meets it. It says that memory is
canonical and within CAP, that status, hcause, fcode, fval and fpos agree, that fval is a payload the fault's code
allows, and that the latch holds an instruction only while a Running machine waits in IN or OUT. -/
def Obligations.EveryStepKeepsTheInvariant : Prop :=
  ∀ s t : State, Inv s → step s = .next t → Inv t

/-- The invariant holds of the state after reset. -/
def Obligations.ResetMeetsTheInvariant : Prop := Inv State.reset

/-- The invariant holds of the state after a reset that loads any image that is not refused, for every instance and
every collaborator. -/
def Obligations.LoadMeetsTheInvariant : Prop :=
  ∀ (cfg : Config) (image : List Int) (env : Environment) (s : State), load cfg image env = .next s → Inv s

/-! ## Trace -/

/-- R172: a machine with and without the trace observer behaves identically: taking the observer away before a step
gives the state that taking it away after the step gives. -/
def Obligations.TraceObserverHasNoEffect : Prop :=
  ∀ s t : State, step s = .next t → step (withoutTrace s) = .next (withoutTrace t)

/-- An observer receives exactly one event for each instruction that reaches phase X, when it does so, and none for a
boundary, a rejected opcode word, a wait that goes on or a step not performed (R172, D26). -/
def Obligations.TraceHasOneEventPerDecodedInstruction : Prop :=
  ∀ (s t : State) (events : List TraceEvent), s.trace = some events → step s = .next t →
    (∀ i, Ready s → current s = some i →
      t.trace = some (events ++ [⟨s.ip, s.mem.read s.ip.toInt.toNat, i.op.code,
        modeDigits (s.mem.read s.ip.toInt.toNat) i.count, i⟩])) ∧
    (¬ Ready s ∨ current s = none → t.trace = some events)

/-! ## Reset and the host -/

/-- R35: after reset with an image that is not refused, `ip`, `rbase`, `hcause`, `fcode`, `fval` and `fpos` are 0, the
machine is Running, the latch is empty, nothing has been emitted, and memory is the image padded with zeros. -/
def Obligations.ResetLoadsTheImage : Prop :=
  ∀ (cfg : Config) (image : List Int) (env : Environment) (s : State), load cfg image env = .next s →
    s.ip = 0 ∧ s.rbase = 0 ∧ s.status = .running ∧ s.hcause = .none ∧ s.fcode = .noFault ∧ s.fval = 0 ∧ s.fpos = 0 ∧
      s.latch = none ∧ s.output = [] ∧ s.cfg = cfg ∧ s.input = env.input ∧
      (∀ (k : Nat) (v : Int), image[k]? = some v → (s.mem.read k).toInt = v) ∧
      (∀ k : Nat, image.length ≤ k → s.mem.read k = 0)

/-- Loading starts the machine exactly where the capacity is one R7 allows, the image fits it and every value is a
word; otherwise it is refused, by name, and there is no machine (R7, R182, D24; the names are the model's, log
entry 15). -/
def Obligations.LoadRefusesExactlyTheBadImages : Prop :=
  ∀ (cfg : Config) (image : List Int) (env : Environment),
    (1 ≤ cfg.cap ∧ cfg.cap ≤ 4611686018427387904 ∧ image.length ≤ cfg.cap ∧ (∀ v ∈ image, WMIN ≤ v ∧ v ≤ WMAX) →
      ∃ s, load cfg image env = .next s) ∧
    (cfg.cap < 1 ∨ 4611686018427387904 < cfg.cap → load cfg image env = .refused .capacityOutOfRange) ∧
    (1 ≤ cfg.cap → cfg.cap ≤ 4611686018427387904 → cfg.cap < image.length →
      load cfg image env = .refused .imageTooLong) ∧
    (1 ≤ cfg.cap → cfg.cap ≤ 4611686018427387904 → image.length ≤ cfg.cap → (∃ v ∈ image, v < WMIN ∨ WMAX < v) →
      load cfg image env = .refused .imageValueOutOfRange)

/-- Running into zero-filled memory is InvalidOpcode(0): with the empty image the first step faults so, at address
0 (R67, R182, R192). -/
def Obligations.EmptyImageFaultsAtOnce : Prop :=
  ∀ (cfg : Config) (env : Environment), cfg.wf = true →
    ∃ s t, load cfg [] env = .next s ∧ step s = .next t ∧ FaultsAs s t .invalidOpcode 0 ∧ t.fpos = 0

/-- The numbers the host reads in status, hcause and fcode (R27, R28, R150; log entry 12). -/
def Obligations.HostReadsTheStatusNumbers : Prop :=
  ([RunStatus.running, .halted, .faulted].map fun x => x.code.toNat) = [0, 1, 2] ∧
    ([HaltCause.none, .haltInstr, .boundary].map fun x => x.code.toNat) = [0, 1, 2] ∧
    ([FaultCode.noFault, .invalidOpcode, .invalidAddressingMode, .invalidWriteDestination, .memoryOutOfBounds,
      .inputReadFailure, .inputParseFailure, .arithmeticOverflow].map fun x => x.code.toNat) = [0, 1, 2, 3, 4, 5, 6, 7] ∧
    ∀ s : State, hostStatus s = ⟨s.status.code, s.hcause.code, s.fcode.code, s.fval, s.fpos⟩
end

