-- ==== Sys2Proof/Laws/Decode.lean ====
section
/-! SUPPORT. The decoder and the encoder: the tables are inverse to each other, what a parameter's decoding says, and the
inversion of a successful decoding. -/

namespace Sys2Proof

/-! ## The tables -/

@[simp] theorem Mode.ofDigit_digit (m : Mode) : Mode.ofDigit m.digit = some m := by cases m <;> rfl

theorem Mode.digit_of_ofDigit {d : Nat} {m : Mode} (h : Mode.ofDigit d = some m) : m.digit = d := by
  unfold Mode.ofDigit at h
  split at h
  · cases h; simp_all [Mode.digit]
  · split at h
    · cases h; simp_all [Mode.digit]
    · split at h
      · cases h; simp_all [Mode.digit]
      · cases h

theorem Mode.ofDigit_eq_none_iff {d : Nat} : Mode.ofDigit d = none ↔ 2 < d := by
  unfold Mode.ofDigit
  split
  · simp; omega
  · split
    · simp; omega
    · split
      · simp; omega
      · simp; omega

theorem Mode.digit_le (m : Mode) : m.digit ≤ 2 := by cases m <;> decide

@[simp] theorem Op.ofValue_code (o : Op) : Op.ofValue (o.code : Int) = some o := by cases o <;> decide

theorem Op.code_of_ofValue {v : Int} {o : Op} (h : Op.ofValue v = some o) : v = o.code := by
  have := List.find?_some h
  simpa using (of_decide_eq_true this).symm

theorem Op.code_pos (o : Op) : 0 < o.code ∧ o.code < 100 := by cases o <;> decide

theorem Instr.count_eq (i : Instr) : i.count = i.op.count := by cases i <;> rfl

/-! ## The opcode word -/

theorem opcodeValue_of_nonneg {w : Word} (h : 0 ≤ w.toInt) : opcodeValue w = w.toInt % 100 := by
  simp [opcodeValue, h]

theorem opcodeValue_of_neg {w : Word} (h : w.toInt < 0) : opcodeValue w = Int.tmod w.toInt 100 := by
  have : ¬ 0 ≤ w.toInt := by omega
  simp [opcodeValue, this, truncRem100]

/-- Both readings of R62 are the truncating remainder. -/
theorem opcodeValue_eq_tmod (w : Word) : opcodeValue w = Int.tmod w.toInt 100 := by
  by_cases h : 0 ≤ w.toInt
  · rw [opcodeValue_of_nonneg h, Int.tmod_eq_emod_of_nonneg h]
  · exact opcodeValue_of_neg (by omega)

/-- No negative word has an opcode (R62, R67). -/
theorem nonneg_of_ofValue {w : Word} {o : Op} (h : Op.ofValue (opcodeValue w) = some o) : 0 ≤ w.toInt := by
  by_contra hn
  have h1 := Op.code_of_ofValue h
  have h2 := (Op.code_pos o).1
  rw [opcodeValue_eq_tmod] at h1
  have h3 : Int.tmod w.toInt 100 ≤ 0 := by
    have := Int.tmod_nonneg (a := -w.toInt) 100 (by omega)
    rw [Int.neg_tmod] at this
    omega
  omega

/-- An opcode value lies between -99 and 99. -/
theorem opcodeValue_bounds (w : Word) : -99 ≤ opcodeValue w ∧ opcodeValue w ≤ 99 := by
  rw [opcodeValue_eq_tmod]
  have h1 := Int.tmod_lt_of_pos w.toInt (show (0 : Int) < 100 by omega)
  have h2 := Int.tmod_lt_of_pos (-w.toInt) (show (0 : Int) < 100 by omega)
  rw [Int.neg_tmod] at h2
  omega

theorem modeDigit_le (w : Word) (i : Nat) : modeDigit w i ≤ 9 := by
  unfold modeDigit decimalDigit; omega

/-! ## Decoding parameters -/

theorem decodeParam_of_mode {w : Word} {i : Nat} {m : Mode} (h : modeDigit w i = m.digit) (raw : Word)
    (rest : List Word) : decodeParam w i (raw :: rest) = .ok (⟨m, raw⟩, rest) := by
  simp [decodeParam, h]

theorem decodeParam_nil (w : Word) (i : Nat) : decodeParam w i [] = .error (.missingParameter i) := rfl

theorem decodeParam_bad {w : Word} {i : Nat} (h : 2 < modeDigit w i) (raw : Word) (rest : List Word) :
    decodeParam w i (raw :: rest) = .error (.invalidAddressingMode (modeDigit w i)) := by
  simp [decodeParam, Mode.ofDigit_eq_none_iff.2 h]

/-- A parameter decodes from its own word and its own digit. -/
theorem decodeParam_ok {w : Word} {i : Nat} {ws rest : List Word} {p : Param}
    (h : decodeParam w i ws = .ok (p, rest)) : ws = p.raw :: rest ∧ modeDigit w i = p.mode.digit := by
  unfold decodeParam at h
  split at h
  · cases h
  · split at h
    · cases h
    · rename_i hm; cases h; exact ⟨rfl, (Mode.digit_of_ofDigit hm).symm⟩

/-- A parameter is rejected because its word is missing or its digit is no mode. -/
theorem decodeParam_error {w : Word} {i : Nat} {ws : List Word} {e : DecodeError} (h : decodeParam w i ws = .error e) :
    (ws = [] ∧ e = .missingParameter i) ∨
      (ws ≠ [] ∧ 2 < modeDigit w i ∧ e = .invalidAddressingMode (modeDigit w i)) := by
  unfold decodeParam at h
  split at h
  · cases h; exact .inl ⟨rfl, rfl⟩
  · split at h
    · rename_i hm; cases h; exact .inr ⟨by simp, Mode.ofDigit_eq_none_iff.1 hm, rfl⟩
    · cases h

theorem decodeR_ok {mk : Param → Instr} {w : Word} {ws rest : List Word} {i : Instr}
    (h : decodeR mk w ws = .ok (i, rest)) : ∃ p0, decodeParam w 0 ws = .ok (p0, rest) ∧ i = mk p0 := by
  unfold decodeR at h
  cases h0 : decodeParam w 0 ws with
  | error e => simp [h0, bind, Except.bind] at h
  | ok r =>
    simp only [h0, bind, Except.bind, Except.ok.injEq, Prod.mk.injEq] at h
    exact ⟨r.1, by rw [← h.2], h.1.symm⟩

theorem decodeW_ok {mk : Param → Instr} {w : Word} {ws rest : List Word} {i : Instr}
    (h : decodeW mk w ws = .ok (i, rest)) :
    ∃ p0, decodeParam w 0 ws = .ok (p0, rest) ∧ p0.canBeWritten = true ∧ i = mk p0 := by
  unfold decodeW at h
  cases h0 : decodeParam w 0 ws with
  | error e => simp [h0, bind, Except.bind] at h
  | ok r =>
    simp only [h0, bind, Except.bind] at h
    split at h
    · rename_i hw
      simp only [Except.ok.injEq, Prod.mk.injEq] at h
      exact ⟨r.1, by rw [← h.2], hw, h.1.symm⟩
    · cases h

theorem decodeRR_ok {mk : Param → Param → Instr} {w : Word} {ws rest : List Word} {i : Instr}
    (h : decodeRR mk w ws = .ok (i, rest)) :
    ∃ p0 p1 ws1, decodeParam w 0 ws = .ok (p0, ws1) ∧ decodeParam w 1 ws1 = .ok (p1, rest) ∧ i = mk p0 p1 := by
  unfold decodeRR at h
  cases h0 : decodeParam w 0 ws with
  | error e => simp [h0, bind, Except.bind] at h
  | ok r =>
    cases h1 : decodeParam w 1 r.2 with
    | error e => simp [h0, h1, bind, Except.bind] at h
    | ok q =>
      simp only [h0, h1, bind, Except.bind, Except.ok.injEq, Prod.mk.injEq] at h
      exact ⟨r.1, q.1, r.2, rfl, by rw [h1, ← h.2], h.1.symm⟩

theorem decodeRRW_ok {mk : Param → Param → Param → Instr} {w : Word} {ws rest : List Word} {i : Instr}
    (h : decodeRRW mk w ws = .ok (i, rest)) :
    ∃ p0 p1 p2 ws1 ws2, decodeParam w 0 ws = .ok (p0, ws1) ∧ decodeParam w 1 ws1 = .ok (p1, ws2) ∧
      decodeParam w 2 ws2 = .ok (p2, rest) ∧ p2.canBeWritten = true ∧ i = mk p0 p1 p2 := by
  unfold decodeRRW at h
  cases h0 : decodeParam w 0 ws with
  | error e => simp [h0, bind, Except.bind] at h
  | ok r =>
    cases h1 : decodeParam w 1 r.2 with
    | error e => simp [h0, h1, bind, Except.bind] at h
    | ok q =>
      cases h2 : decodeParam w 2 q.2 with
      | error e => simp [h0, h1, h2, bind, Except.bind] at h
      | ok u =>
        simp only [h0, h1, h2, bind, Except.bind] at h
        split at h
        · rename_i hw
          simp only [Except.ok.injEq, Prod.mk.injEq] at h
          exact ⟨r.1, q.1, u.1, r.2, q.2, rfl, h1, by rw [h2, ← h.2], hw, h.1.symm⟩
        · cases h

/-! ## The decoder by operation -/

/-- The decoder of one operation's parameters. -/
def decodeOp (o : Op) (w : Word) (ws : List Word) : Except DecodeError (Instr × List Word) :=
  match o with
  | .add => decodeRRW .add w ws
  | .mul => decodeRRW .mul w ws
  | .input => decodeW .input w ws
  | .output => decodeR .output w ws
  | .jnz => decodeRR .jnz w ws
  | .jz => decodeRR .jz w ws
  | .lt => decodeRRW .lt w ws
  | .eq => decodeRRW .eq w ws
  | .arb => decodeR .arb w ws
  | .hlt => .ok (.hlt, ws)

theorem decode_of_op {w : Word} {o : Op} (h : Op.ofValue (opcodeValue w) = some o) (ws : List Word) :
    decode (w :: ws) = decodeOp o w ws := by
  cases o <;> simp [decode, h, decodeOp]

theorem decode_of_no_op {w : Word} (h : Op.ofValue (opcodeValue w) = none) (ws : List Word) :
    decode (w :: ws) = .error (.invalidOpcode (opcodeValue w)) := by
  simp [decode, h]

/-- What a successful decoding says: the opcode is the instruction's, the words are its raw words, its modes are the mode
digits, and it is well formed. -/
theorem decode_ok {w : Word} {ws rest : List Word} {i : Instr} (h : decode (w :: ws) = .ok (i, rest)) :
    Op.ofValue (opcodeValue w) = some i.op ∧ ws = i.raws ++ rest ∧ i.wellFormed = true ∧
      i.params.map (fun p => p.mode.digit) = modeDigits w i.count := by
  cases ho : Op.ofValue (opcodeValue w) with
  | none => rw [decode_of_no_op ho] at h; cases h
  | some o =>
    rw [decode_of_op ho] at h
    cases o
    case add | mul | lt | eq =>
      obtain ⟨p0, p1, p2, ws1, ws2, h0, h1, h2, hw, rfl⟩ := decodeRRW_ok h
      obtain ⟨rfl, d0⟩ := decodeParam_ok h0
      obtain ⟨rfl, d1⟩ := decodeParam_ok h1
      obtain ⟨rfl, d2⟩ := decodeParam_ok h2
      refine ⟨rfl, rfl, hw, ?_⟩
      simp [modeDigits, Instr.params, Instr.count, List.range_succ, d0, d1, d2]
    case jnz | jz =>
      obtain ⟨p0, p1, ws1, h0, h1, rfl⟩ := decodeRR_ok h
      obtain ⟨rfl, d0⟩ := decodeParam_ok h0
      obtain ⟨rfl, d1⟩ := decodeParam_ok h1
      refine ⟨rfl, rfl, rfl, ?_⟩
      simp [modeDigits, Instr.params, Instr.count, List.range_succ, d0, d1]
    case input =>
      obtain ⟨p0, h0, hw, rfl⟩ := decodeW_ok h
      obtain ⟨rfl, d0⟩ := decodeParam_ok h0
      refine ⟨rfl, rfl, hw, ?_⟩
      simp [modeDigits, Instr.params, Instr.count, d0]
    case output | arb =>
      obtain ⟨p0, h0, rfl⟩ := decodeR_ok h
      obtain ⟨rfl, d0⟩ := decodeParam_ok h0
      refine ⟨rfl, rfl, rfl, ?_⟩
      simp [modeDigits, Instr.params, Instr.count, d0]
    case hlt =>
      simp only [decodeOp, Except.ok.injEq, Prod.mk.injEq] at h
      obtain ⟨rfl, rfl⟩ := h
      exact ⟨rfl, rfl, rfl, rfl⟩

/-- What a rejection says: an opcode that is not in the map, a word that is missing, a digit that is no mode, or an
Immediate destination after all parameters. -/
theorem decode_error {w : Word} {ws : List Word} {e : DecodeError} (h : decode (w :: ws) = .error e) :
    (Op.ofValue (opcodeValue w) = none ∧ e = .invalidOpcode (opcodeValue w)) ∨
      (∃ o, Op.ofValue (opcodeValue w) = some o ∧
        ((∃ k, k < o.count ∧ ws.length = k ∧ e = .missingParameter k) ∨
          (∃ k, k < o.count ∧ 2 < modeDigit w k ∧ e = .invalidAddressingMode (modeDigit w k)) ∨
          e = .invalidWriteDestination o.count)) := by
  cases ho : Op.ofValue (opcodeValue w) with
  | none => rw [decode_of_no_op ho] at h; cases h; exact .inl ⟨rfl, rfl⟩
  | some o =>
    refine .inr ⟨o, rfl, ?_⟩
    rw [decode_of_op ho] at h
    cases o
    case add | mul | lt | eq =>
      simp only [decodeOp, decodeRRW] at h
      cases h0 : decodeParam w 0 ws with
      | error e0 =>
        simp only [h0, bind, Except.bind, Except.error.injEq] at h
        subst h
        rcases decodeParam_error h0 with ⟨rfl, rfl⟩ | ⟨-, hd, rfl⟩
        · exact .inl ⟨0, by decide, rfl, rfl⟩
        · exact .inr (.inl ⟨0, by decide, hd, rfl⟩)
      | ok r0 =>
        obtain ⟨p0, ws1⟩ := r0
        obtain ⟨rfl, -⟩ := decodeParam_ok h0
        cases h1 : decodeParam w 1 ws1 with
        | error e1 =>
          simp only [h0, h1, bind, Except.bind, Except.error.injEq] at h
          subst h
          rcases decodeParam_error h1 with ⟨rfl, rfl⟩ | ⟨-, hd, rfl⟩
          · exact .inl ⟨1, by decide, rfl, rfl⟩
          · exact .inr (.inl ⟨1, by decide, hd, rfl⟩)
        | ok r1 =>
          obtain ⟨p1, ws2⟩ := r1
          obtain ⟨rfl, -⟩ := decodeParam_ok h1
          cases h2 : decodeParam w 2 ws2 with
          | error e2 =>
            simp only [h0, h1, h2, bind, Except.bind, Except.error.injEq] at h
            subst h
            rcases decodeParam_error h2 with ⟨rfl, rfl⟩ | ⟨-, hd, rfl⟩
            · exact .inl ⟨2, by decide, rfl, rfl⟩
            · exact .inr (.inl ⟨2, by decide, hd, rfl⟩)
          | ok r2 =>
            simp only [h0, h1, h2, bind, Except.bind] at h
            split at h
            · cases h
            · cases h; exact .inr (.inr rfl)
    case jnz | jz =>
      simp only [decodeOp, decodeRR] at h
      cases h0 : decodeParam w 0 ws with
      | error e0 =>
        simp only [h0, bind, Except.bind, Except.error.injEq] at h
        subst h
        rcases decodeParam_error h0 with ⟨rfl, rfl⟩ | ⟨-, hd, rfl⟩
        · exact .inl ⟨0, by decide, rfl, rfl⟩
        · exact .inr (.inl ⟨0, by decide, hd, rfl⟩)
      | ok r0 =>
        obtain ⟨p0, ws1⟩ := r0
        obtain ⟨rfl, -⟩ := decodeParam_ok h0
        cases h1 : decodeParam w 1 ws1 with
        | error e1 =>
          simp only [h0, h1, bind, Except.bind, Except.error.injEq] at h
          subst h
          rcases decodeParam_error h1 with ⟨rfl, rfl⟩ | ⟨-, hd, rfl⟩
          · exact .inl ⟨1, by decide, rfl, rfl⟩
          · exact .inr (.inl ⟨1, by decide, hd, rfl⟩)
        | ok r1 => simp only [h0, h1, bind, Except.bind] at h; cases h
    case input =>
      simp only [decodeOp, decodeW] at h
      cases h0 : decodeParam w 0 ws with
      | error e0 =>
        simp only [h0, bind, Except.bind, Except.error.injEq] at h
        subst h
        rcases decodeParam_error h0 with ⟨rfl, rfl⟩ | ⟨-, hd, rfl⟩
        · exact .inl ⟨0, by decide, rfl, rfl⟩
        · exact .inr (.inl ⟨0, by decide, hd, rfl⟩)
      | ok r0 =>
        simp only [h0, bind, Except.bind] at h
        split at h
        · cases h
        · cases h; exact .inr (.inr rfl)
    case output | arb =>
      simp only [decodeOp, decodeR] at h
      cases h0 : decodeParam w 0 ws with
      | error e0 =>
        simp only [h0, bind, Except.bind, Except.error.injEq] at h
        subst h
        rcases decodeParam_error h0 with ⟨rfl, rfl⟩ | ⟨-, hd, rfl⟩
        · exact .inl ⟨0, by decide, rfl, rfl⟩
        · exact .inr (.inl ⟨0, by decide, hd, rfl⟩)
      | ok r0 => simp only [h0, bind, Except.bind] at h; cases h
    case hlt => cases h

/-- No integer but the ten opcodes selects an operation (R66). -/
theorem ofValue_eq_none_iff (v : Int) : Op.ofValue v = none ↔ v ∉ ([1, 2, 3, 4, 5, 6, 7, 8, 9, 99] : List Int) := by
  constructor
  · intro h hm
    simp only [List.mem_cons, List.not_mem_nil, or_false] at hm
    rcases hm with rfl | rfl | rfl | rfl | rfl | rfl | rfl | rfl | rfl | rfl <;> exact absurd h (by decide)
  · intro h
    cases ho : Op.ofValue v with
    | none => rfl
    | some o =>
      refine absurd ?_ h
      rw [Op.code_of_ofValue ho]
      cases o <;> decide

theorem ofValue_of_code {w : Word} {o : Op} (h0 : 0 ≤ w.toInt) (h : w.toInt % 100 = o.code) :
    Op.ofValue (opcodeValue w) = some o := by
  rw [opcodeValue_of_nonneg h0, h, Op.ofValue_code]

/-- A parameter whose digit is a mode decodes. -/
theorem decodeParam_good {w : Word} {k : Nat} (h : modeDigit w k ≤ 2) (r : Word) (l : List Word) :
    ∃ m, Mode.digit m = modeDigit w k ∧ decodeParam w k (r :: l) = .ok (⟨m, r⟩, l) := by
  cases hm : Mode.ofDigit (modeDigit w k) with
  | none => have := Mode.ofDigit_eq_none_iff.1 hm; omega
  | some m => exact ⟨m, Mode.digit_of_ofDigit hm, decodeParam_of_mode (Mode.digit_of_ofDigit hm).symm r l⟩

/-- The decoder stops at the first parameter that is rejected. -/
theorem decode_stop {w : Word} {o : Op} (ho : Op.ofValue (opcodeValue w) = some o) {k : Nat} (hk : k < o.count)
    (ws : List Word) (hj : ∀ j, j < k → modeDigit w j ≤ 2) (hl : k ≤ ws.length) {e : DecodeError}
    (he : decodeParam w k (ws.drop k) = .error e) : decode (w :: ws) = .error e := by
  rw [decode_of_op ho]
  cases o <;> simp only [Op.count] at hk <;> simp only [decodeOp, decodeRRW, decodeRR, decodeW, decodeR]
  case add | mul | lt | eq =>
    match k, hk with
    | 0, _ => rw [List.drop_zero] at he; simp only [he, bind, Except.bind]
    | 1, _ =>
      match ws, hl with
      | r::l, _ =>
        obtain ⟨m, -, h0⟩ := decodeParam_good (hj 0 (by omega)) r l
        simp only [List.drop_succ_cons, List.drop_zero] at he
        simp only [h0, he, bind, Except.bind]
    | 2, _ =>
      match ws, hl with
      | r::r'::l, _ =>
        obtain ⟨m, -, h0⟩ := decodeParam_good (hj 0 (by omega)) r (r'::l)
        obtain ⟨m', -, h1⟩ := decodeParam_good (hj 1 (by omega)) r' l
        simp only [List.drop_succ_cons, List.drop_zero] at he
        simp only [h0, h1, he, bind, Except.bind]
  case jnz | jz =>
    match k, hk with
    | 0, _ => rw [List.drop_zero] at he; simp only [he, bind, Except.bind]
    | 1, _ =>
      match ws, hl with
      | r::l, _ =>
        obtain ⟨m, -, h0⟩ := decodeParam_good (hj 0 (by omega)) r l
        simp only [List.drop_succ_cons, List.drop_zero] at he
        simp only [h0, he, bind, Except.bind]
  case input | output | arb =>
    match k, hk with
    | 0, _ => rw [List.drop_zero] at he; simp only [he, bind, Except.bind]
  case hlt => omega

/-! ## Canonical opcode words -/

theorem modeNumber_lt (ps : List Param) : modeNumber ps < 10 ^ ps.length := by
  induction ps with
  | nil => simp [modeNumber]
  | cons p ps ih =>
    have := p.mode.digit_le
    simp only [modeNumber, List.length_cons, pow_succ]
    omega

theorem Op.count_le (o : Op) : o.count ≤ 3 := by cases o <;> decide

theorem Instr.count_le (i : Instr) : i.count ≤ 3 := i.count_eq ▸ i.op.count_le

theorem canonicalOpcode_lt (i : Instr) : canonicalOpcode i < 100000 := by
  have h1 := modeNumber_lt i.params
  have h2 := (Op.code_pos i.op).2
  have h3 : 10 ^ i.params.length ≤ 10 ^ 3 := Nat.pow_le_pow_right (by omega) i.count_le
  unfold canonicalOpcode
  omega

theorem canonicalOpcode_toNat (i : Instr) : (BitVec.ofNat 64 (canonicalOpcode i)).toNat = canonicalOpcode i := by
  have := canonicalOpcode_lt i
  rw [BitVec.toNat_ofNat]
  exact Nat.mod_eq_of_lt (by omega)

theorem canonicalOpcode_toInt (i : Instr) : (BitVec.ofNat 64 (canonicalOpcode i)).toInt = canonicalOpcode i := by
  have := canonicalOpcode_lt i
  rw [BitVec.toInt_eq_toNat_cond, canonicalOpcode_toNat]
  simp only [ite_eq_left_iff]
  omega

/-- The two low digits of a canonical opcode word are the opcode (R61). -/
theorem canonicalOpcode_mod (i : Instr) : canonicalOpcode i % 100 = i.op.code := by
  have := (Op.code_pos i.op).2
  unfold canonicalOpcode
  omega

/-- Digit `2 + k` of a canonical opcode word is the mode digit of parameter `k` (R61, R63). -/
theorem modeDigit_canonical (i : Instr) (k : Nat) (h : k < i.params.length) :
    modeDigit (BitVec.ofNat 64 (canonicalOpcode i)) k = (i.params[k]).mode.digit := by
  have hgen : ∀ (ps : List Param) (k : Nat) (h : k < ps.length), modeNumber ps / 10 ^ k % 10 = (ps[k]).mode.digit := by
    intro ps
    induction ps with
    | nil => intro k h; simp at h
    | cons p ps ih =>
      intro k h
      have hp := p.mode.digit_le
      cases k with
      | zero => simp [modeNumber]; omega
      | succ k =>
        have : (p.mode.digit + 10 * modeNumber ps) / 10 = modeNumber ps := by omega
        rw [modeNumber, pow_succ', ← Nat.div_div_eq_div_mul, this]
        simpa using ih k (by simpa using h)
  have h2 := (Op.code_pos i.op).2
  unfold modeDigit decimalDigit
  rw [canonicalOpcode_toNat, pow_add, ← Nat.div_div_eq_div_mul]
  have : canonicalOpcode i / 10 ^ 2 = modeNumber i.params := by unfold canonicalOpcode; omega
  rw [this]
  exact hgen i.params k h

theorem ofValue_canonical (i : Instr) : Op.ofValue (opcodeValue (BitVec.ofNat 64 (canonicalOpcode i))) = some i.op := by
  have h := canonicalOpcode_toInt i
  rw [opcodeValue_of_nonneg (by omega), h, ← Op.ofValue_code, ← canonicalOpcode_mod]
  norm_cast

end Sys2Proof
end

