-- ==== Sys2Proof/Laws/Memory.lean ====
section
/-! SUPPORT. Memory: what a read gives after each operation, and that every operation keeps the canonical form
and the bound. -/

namespace Sys2Proof.Machine

@[simp] theorem Memory.read_nil (a : Nat) : Memory.read [] a = unlistedWord := rfl

theorem Memory.read_cons (b : Nat) (u : Word) (m : Memory) (a : Nat) :
    Memory.read ((b, u) :: m) a = if a = b then u else Memory.read m a := rfl

theorem Memory.read_erase_same (m : Memory) (a : Nat) : (m.erase a).read a = unlistedWord := by
  induction m with
  | nil => rfl
  | cons c m ih =>
    obtain ⟨b, u⟩ := c
    simp only [Memory.erase]
    split
    · exact ih
    · rename_i h; simp only [Memory.read_cons, if_neg h]; exact ih

theorem Memory.read_erase_other (m : Memory) {a b : Nat} (h : b ≠ a) : (m.erase a).read b = m.read b := by
  induction m with
  | nil => rfl
  | cons c m ih =>
    obtain ⟨b', u⟩ := c
    simp only [Memory.erase]
    split
    · rename_i he; subst he; simp only [Memory.read_cons, if_neg h]; exact ih
    · simp only [Memory.read_cons]; rw [ih]

theorem Memory.read_insert_same (m : Memory) (a : Nat) (v : Word) : (m.insert a v).read a = v := by
  induction m with
  | nil => simp [Memory.insert, Memory.read_cons]
  | cons c m ih =>
    obtain ⟨b, u⟩ := c
    simp only [Memory.insert]
    split
    · simp [Memory.read_cons]
    · split
      · simp [Memory.read_cons]
      · rename_i h; simp only [Memory.read_cons, if_neg h]; exact ih

theorem Memory.read_insert_other (m : Memory) {a b : Nat} (v : Word) (h : b ≠ a) :
    (m.insert a v).read b = m.read b := by
  induction m with
  | nil => simp [Memory.insert, Memory.read_cons, h]
  | cons c m ih =>
    obtain ⟨b', u⟩ := c
    simp only [Memory.insert]
    split
    · simp [Memory.read_cons, h]
    · split
      · rename_i he; subst he; simp [Memory.read_cons, h]
      · simp only [Memory.read_cons]; rw [ih]

@[simp] theorem Memory.read_write_same (m : Memory) (a : Nat) (v : Word) : (m.write a v).read a = v := by
  unfold Memory.write
  split
  · rename_i h; rw [Memory.read_erase_same, h]
  · exact Memory.read_insert_same m a v

theorem Memory.read_write_other (m : Memory) {a b : Nat} (v : Word) (h : b ≠ a) :
    (m.write a v).read b = m.read b := by
  unfold Memory.write
  split
  · exact Memory.read_erase_other m h
  · exact Memory.read_insert_other m v h

theorem Memory.read_write (m : Memory) (a b : Nat) (v : Word) :
    (m.write a v).read b = if b = a then v else m.read b := by
  split
  · rename_i h; subst h; exact Memory.read_write_same m b v
  · rename_i h; exact Memory.read_write_other m v h

/-! ## The canonical form -/

theorem Memory.wf_cons {b : Nat} {u : Word} {m : Memory} :
    Memory.wf ((b, u) :: m) = true ↔ u ≠ unlistedWord ∧ (∀ c ∈ m, b < c.1) ∧ m.wf = true := by
  simp [Memory.wf, List.all_eq_true, and_assoc]

theorem Memory.mem_of_mem_erase {m : Memory} {a : Nat} {c : Nat × Word} (h : c ∈ m.erase a) : c ∈ m := by
  induction m with
  | nil => simp [Memory.erase] at h
  | cons d m ih =>
    obtain ⟨b, u⟩ := d
    simp only [Memory.erase] at h
    split at h
    · exact List.mem_cons_of_mem _ (ih h)
    · rcases List.mem_cons.1 h with h | h
      · exact h ▸ List.mem_cons_self
      · exact List.mem_cons_of_mem _ (ih h)

theorem Memory.mem_of_mem_insert {m : Memory} {a : Nat} {v : Word} {c : Nat × Word} (h : c ∈ m.insert a v) :
    c = (a, v) ∨ c ∈ m := by
  induction m with
  | nil => simpa [Memory.insert] using h
  | cons d m ih =>
    obtain ⟨b, u⟩ := d
    simp only [Memory.insert] at h
    split at h
    · simpa using h
    · split at h
      · rcases List.mem_cons.1 h with h | h
        · exact .inl h
        · exact .inr (List.mem_cons_of_mem _ h)
      · rcases List.mem_cons.1 h with h | h
        · exact .inr (h ▸ List.mem_cons_self)
        · exact (ih h).imp id (List.mem_cons_of_mem _)

theorem Memory.erase_wf {m : Memory} (h : m.wf = true) (a : Nat) : (m.erase a).wf = true := by
  induction m with
  | nil => rfl
  | cons d m ih =>
    obtain ⟨b, u⟩ := d
    obtain ⟨hu, hb, hm⟩ := Memory.wf_cons.1 h
    simp only [Memory.erase]
    split
    · exact ih hm
    · exact Memory.wf_cons.2 ⟨hu, fun c hc => hb c (Memory.mem_of_mem_erase hc), ih hm⟩

theorem Memory.insert_wf {m : Memory} (h : m.wf = true) (a : Nat) {v : Word} (hv : v ≠ unlistedWord) :
    (m.insert a v).wf = true := by
  induction m with
  | nil => exact Memory.wf_cons.2 ⟨hv, by simp, rfl⟩
  | cons d m ih =>
    obtain ⟨b, u⟩ := d
    obtain ⟨hu, hb, hm⟩ := Memory.wf_cons.1 h
    simp only [Memory.insert]
    split
    · rename_i hab
      refine Memory.wf_cons.2 ⟨hv, ?_, h⟩
      intro c hc
      rcases List.mem_cons.1 hc with hc | hc
      · subst hc; exact hab
      · exact hab.trans (hb c hc)
    · split
      · rename_i _ hab; subst hab; exact Memory.wf_cons.2 ⟨hv, hb, hm⟩
      · refine Memory.wf_cons.2 ⟨hu, ?_, ih hm⟩
        intro c hc
        rcases Memory.mem_of_mem_insert hc with hc | hc
        · subst hc; omega
        · exact hb c hc

/-- A write keeps the canonical form. -/
theorem Memory.write_wf {m : Memory} (h : m.wf = true) (a : Nat) (v : Word) : (m.write a v).wf = true := by
  unfold Memory.write
  split
  · exact Memory.erase_wf h a
  · rename_i hv; exact Memory.insert_wf h a hv

theorem Memory.writeAll_wf {m : Memory} (h : m.wf = true) (a : Nat) (vs : List Word) : (m.writeAll a vs).wf = true := by
  induction vs generalizing m a with
  | nil => exact h
  | cons v vs ih => exact ih (Memory.write_wf h a v) (a + 1)

theorem Memory.below_iff {cap : Nat} {m : Memory} : Memory.below cap m = true ↔ ∀ c ∈ m, c.1 < cap := by
  simp [Memory.below, List.all_eq_true]

/-- A write below the capacity lists nothing at or above it. -/
theorem Memory.write_below {m : Memory} {cap a : Nat} (h : m.below cap = true) (ha : a < cap) (v : Word) :
    (m.write a v).below cap = true := by
  rw [Memory.below_iff] at h ⊢
  intro c hc
  unfold Memory.write at hc
  split at hc
  · exact h c (Memory.mem_of_mem_erase hc)
  · rcases Memory.mem_of_mem_insert hc with hc | hc
    · subst hc; exact ha
    · exact h c hc

theorem Memory.writeAll_below {m : Memory} {cap a : Nat} (vs : List Word) (h : m.below cap = true)
    (ha : a + vs.length ≤ cap) : (m.writeAll a vs).below cap = true := by
  induction vs generalizing m a with
  | nil => exact h
  | cons v vs ih =>
    simp only [List.length_cons] at ha
    exact ih (Memory.write_below h (by omega) v) (by omega)

/-- What a filled memory reads as: the words in order from the address on, and what it read before elsewhere. -/
theorem Memory.read_writeAll (m : Memory) (a : Nat) (vs : List Word) (b : Nat) :
    (m.writeAll a vs).read b = if a ≤ b then (vs[b - a]?).getD (m.read b) else m.read b := by
  induction vs generalizing m a with
  | nil => simp [Memory.writeAll]
  | cons v vs ih =>
    simp only [Memory.writeAll, ih, Memory.read_write]
    by_cases h : b = a
    · subst h; simp
    · by_cases hab : a ≤ b
      · obtain ⟨k, rfl⟩ : ∃ k, b = a + 1 + k := ⟨b - (a + 1), by omega⟩
        have h1 : a + 1 + k - a = k + 1 := by omega
        simp [h1]
        rw [if_neg h, if_pos hab]
      · have : ¬ a + 1 ≤ b := by omega
        simp [hab, this, h]

theorem Memory.read_of_lt {m : Memory} {a : Nat} (h : ∀ c ∈ m, a < c.1) : m.read a = unlistedWord := by
  induction m with
  | nil => rfl
  | cons d m ih =>
    obtain ⟨b, u⟩ := d
    have hb : a < b := h (b, u) List.mem_cons_self
    rw [Memory.read_cons, if_neg (by omega)]
    exact ih fun c hc => h c (List.mem_cons_of_mem _ hc)

end Sys2Proof.Machine
end

