-- ==== Sys2Proof/Laws/State.lean ====
section
/-! SUPPORT. One lemma per field for every named update of State, true by rfl, so that no proof unfolds a record update. -/

namespace Sys2Proof.Machine

@[simp] theorem raise_cfg (s : State) (e : Raise) : (raise s e).cfg = s.cfg := rfl
@[simp] theorem raise_mem (s : State) (e : Raise) : (raise s e).mem = s.mem := rfl
@[simp] theorem raise_ip (s : State) (e : Raise) : (raise s e).ip = s.ip := rfl
@[simp] theorem raise_rbase (s : State) (e : Raise) : (raise s e).rbase = s.rbase := rfl
@[simp] theorem raise_status (s : State) (e : Raise) : (raise s e).status = .faulted := rfl
@[simp] theorem raise_hcause (s : State) (e : Raise) : (raise s e).hcause = s.hcause := rfl
@[simp] theorem raise_fcode (s : State) (e : Raise) : (raise s e).fcode = e.code := rfl
@[simp] theorem raise_fval (s : State) (e : Raise) : (raise s e).fval = BitVec.ofInt 65 e.value := rfl
@[simp] theorem raise_fpos (s : State) (e : Raise) : (raise s e).fpos = s.a0 := rfl
@[simp] theorem raise_a0 (s : State) (e : Raise) : (raise s e).a0 = s.a0 := rfl
@[simp] theorem raise_latch (s : State) (e : Raise) : (raise s e).latch = none := rfl
@[simp] theorem raise_input (s : State) (e : Raise) : (raise s e).input = s.input := rfl
@[simp] theorem raise_inputEnd (s : State) (e : Raise) : (raise s e).inputEnd = s.inputEnd := rfl
@[simp] theorem raise_output (s : State) (e : Raise) : (raise s e).output = s.output := rfl
@[simp] theorem raise_sink (s : State) (e : Raise) : (raise s e).sink = s.sink := rfl
@[simp] theorem raise_trace (s : State) (e : Raise) : (raise s e).trace = s.trace := rfl

@[simp] theorem retire_cfg (s : State) : (retire s).cfg = s.cfg := rfl
@[simp] theorem retire_mem (s : State) : (retire s).mem = s.mem := rfl
@[simp] theorem retire_ip (s : State) : (retire s).ip = s.ip := rfl
@[simp] theorem retire_rbase (s : State) : (retire s).rbase = s.rbase := rfl
@[simp] theorem retire_status (s : State) : (retire s).status = s.status := rfl
@[simp] theorem retire_hcause (s : State) : (retire s).hcause = s.hcause := rfl
@[simp] theorem retire_fcode (s : State) : (retire s).fcode = s.fcode := rfl
@[simp] theorem retire_fval (s : State) : (retire s).fval = s.fval := rfl
@[simp] theorem retire_fpos (s : State) : (retire s).fpos = s.fpos := rfl
@[simp] theorem retire_a0 (s : State) : (retire s).a0 = s.a0 := rfl
@[simp] theorem retire_latch (s : State) : (retire s).latch = none := rfl
@[simp] theorem retire_input (s : State) : (retire s).input = s.input := rfl
@[simp] theorem retire_inputEnd (s : State) : (retire s).inputEnd = s.inputEnd := rfl
@[simp] theorem retire_output (s : State) : (retire s).output = s.output := rfl
@[simp] theorem retire_sink (s : State) : (retire s).sink = s.sink := rfl
@[simp] theorem retire_trace (s : State) : (retire s).trace = s.trace := rfl

@[simp] theorem haltWith_cfg (s : State) (c : HaltCause) : (haltWith s c).cfg = s.cfg := rfl
@[simp] theorem haltWith_mem (s : State) (c : HaltCause) : (haltWith s c).mem = s.mem := rfl
@[simp] theorem haltWith_ip (s : State) (c : HaltCause) : (haltWith s c).ip = s.ip := rfl
@[simp] theorem haltWith_rbase (s : State) (c : HaltCause) : (haltWith s c).rbase = s.rbase := rfl
@[simp] theorem haltWith_status (s : State) (c : HaltCause) : (haltWith s c).status = .halted := rfl
@[simp] theorem haltWith_hcause (s : State) (c : HaltCause) : (haltWith s c).hcause = c := rfl
@[simp] theorem haltWith_fcode (s : State) (c : HaltCause) : (haltWith s c).fcode = s.fcode := rfl
@[simp] theorem haltWith_fval (s : State) (c : HaltCause) : (haltWith s c).fval = s.fval := rfl
@[simp] theorem haltWith_fpos (s : State) (c : HaltCause) : (haltWith s c).fpos = s.fpos := rfl
@[simp] theorem haltWith_a0 (s : State) (c : HaltCause) : (haltWith s c).a0 = s.a0 := rfl
@[simp] theorem haltWith_latch (s : State) (c : HaltCause) : (haltWith s c).latch = none := rfl
@[simp] theorem haltWith_input (s : State) (c : HaltCause) : (haltWith s c).input = s.input := rfl
@[simp] theorem haltWith_inputEnd (s : State) (c : HaltCause) : (haltWith s c).inputEnd = s.inputEnd := rfl
@[simp] theorem haltWith_output (s : State) (c : HaltCause) : (haltWith s c).output = s.output := rfl
@[simp] theorem haltWith_sink (s : State) (c : HaltCause) : (haltWith s c).sink = s.sink := rfl
@[simp] theorem haltWith_trace (s : State) (c : HaltCause) : (haltWith s c).trace = s.trace := rfl

@[simp] theorem waitOn_cfg (s : State) (i : Instr) : (waitOn s i).cfg = s.cfg := rfl
@[simp] theorem waitOn_mem (s : State) (i : Instr) : (waitOn s i).mem = s.mem := rfl
@[simp] theorem waitOn_ip (s : State) (i : Instr) : (waitOn s i).ip = s.ip := rfl
@[simp] theorem waitOn_rbase (s : State) (i : Instr) : (waitOn s i).rbase = s.rbase := rfl
@[simp] theorem waitOn_status (s : State) (i : Instr) : (waitOn s i).status = s.status := rfl
@[simp] theorem waitOn_hcause (s : State) (i : Instr) : (waitOn s i).hcause = s.hcause := rfl
@[simp] theorem waitOn_fcode (s : State) (i : Instr) : (waitOn s i).fcode = s.fcode := rfl
@[simp] theorem waitOn_fval (s : State) (i : Instr) : (waitOn s i).fval = s.fval := rfl
@[simp] theorem waitOn_fpos (s : State) (i : Instr) : (waitOn s i).fpos = s.fpos := rfl
@[simp] theorem waitOn_a0 (s : State) (i : Instr) : (waitOn s i).a0 = s.a0 := rfl
@[simp] theorem waitOn_latch (s : State) (i : Instr) : (waitOn s i).latch = some i := rfl
@[simp] theorem waitOn_input (s : State) (i : Instr) : (waitOn s i).input = s.input := rfl
@[simp] theorem waitOn_inputEnd (s : State) (i : Instr) : (waitOn s i).inputEnd = s.inputEnd := rfl
@[simp] theorem waitOn_output (s : State) (i : Instr) : (waitOn s i).output = s.output := rfl
@[simp] theorem waitOn_sink (s : State) (i : Instr) : (waitOn s i).sink = s.sink := rfl
@[simp] theorem waitOn_trace (s : State) (i : Instr) : (waitOn s i).trace = s.trace := rfl

@[simp] theorem emitTrace_cfg (s : State) (e : TraceEvent) : (emitTrace s e).cfg = s.cfg := rfl
@[simp] theorem emitTrace_mem (s : State) (e : TraceEvent) : (emitTrace s e).mem = s.mem := rfl
@[simp] theorem emitTrace_ip (s : State) (e : TraceEvent) : (emitTrace s e).ip = s.ip := rfl
@[simp] theorem emitTrace_rbase (s : State) (e : TraceEvent) : (emitTrace s e).rbase = s.rbase := rfl
@[simp] theorem emitTrace_status (s : State) (e : TraceEvent) : (emitTrace s e).status = s.status := rfl
@[simp] theorem emitTrace_hcause (s : State) (e : TraceEvent) : (emitTrace s e).hcause = s.hcause := rfl
@[simp] theorem emitTrace_fcode (s : State) (e : TraceEvent) : (emitTrace s e).fcode = s.fcode := rfl
@[simp] theorem emitTrace_fval (s : State) (e : TraceEvent) : (emitTrace s e).fval = s.fval := rfl
@[simp] theorem emitTrace_fpos (s : State) (e : TraceEvent) : (emitTrace s e).fpos = s.fpos := rfl
@[simp] theorem emitTrace_a0 (s : State) (e : TraceEvent) : (emitTrace s e).a0 = s.a0 := rfl
@[simp] theorem emitTrace_latch (s : State) (e : TraceEvent) : (emitTrace s e).latch = s.latch := rfl
@[simp] theorem emitTrace_input (s : State) (e : TraceEvent) : (emitTrace s e).input = s.input := rfl
@[simp] theorem emitTrace_inputEnd (s : State) (e : TraceEvent) : (emitTrace s e).inputEnd = s.inputEnd := rfl
@[simp] theorem emitTrace_output (s : State) (e : TraceEvent) : (emitTrace s e).output = s.output := rfl
@[simp] theorem emitTrace_sink (s : State) (e : TraceEvent) : (emitTrace s e).sink = s.sink := rfl
@[simp] theorem emitTrace_trace (s : State) (e : TraceEvent) : (emitTrace s e).trace = s.trace.map (· ++ [e]) := rfl

@[simp] theorem decoded_cfg (s : State) (w : Word) (i : Instr) : (decoded s w i).cfg = s.cfg := rfl
@[simp] theorem decoded_mem (s : State) (w : Word) (i : Instr) : (decoded s w i).mem = s.mem := rfl
@[simp] theorem decoded_ip (s : State) (w : Word) (i : Instr) : (decoded s w i).ip = ipAfter s.ip i.count := rfl
@[simp] theorem decoded_rbase (s : State) (w : Word) (i : Instr) : (decoded s w i).rbase = s.rbase := rfl
@[simp] theorem decoded_status (s : State) (w : Word) (i : Instr) : (decoded s w i).status = s.status := rfl
@[simp] theorem decoded_hcause (s : State) (w : Word) (i : Instr) : (decoded s w i).hcause = s.hcause := rfl
@[simp] theorem decoded_fcode (s : State) (w : Word) (i : Instr) : (decoded s w i).fcode = s.fcode := rfl
@[simp] theorem decoded_fval (s : State) (w : Word) (i : Instr) : (decoded s w i).fval = s.fval := rfl
@[simp] theorem decoded_fpos (s : State) (w : Word) (i : Instr) : (decoded s w i).fpos = s.fpos := rfl
@[simp] theorem decoded_a0 (s : State) (w : Word) (i : Instr) : (decoded s w i).a0 = s.ip := rfl
@[simp] theorem decoded_latch (s : State) (w : Word) (i : Instr) : (decoded s w i).latch = some i := rfl
@[simp] theorem decoded_input (s : State) (w : Word) (i : Instr) : (decoded s w i).input = s.input := rfl
@[simp] theorem decoded_inputEnd (s : State) (w : Word) (i : Instr) : (decoded s w i).inputEnd = s.inputEnd := rfl
@[simp] theorem decoded_output (s : State) (w : Word) (i : Instr) : (decoded s w i).output = s.output := rfl
@[simp] theorem decoded_sink (s : State) (w : Word) (i : Instr) : (decoded s w i).sink = s.sink := rfl
@[simp] theorem decoded_trace (s : State) (w : Word) (i : Instr) : (decoded s w i).trace =
    s.trace.map (· ++ [traceEvent s.ip w i]) := rfl

@[simp] theorem withoutTrace_cfg (s : State) : (withoutTrace s).cfg = s.cfg := rfl
@[simp] theorem withoutTrace_mem (s : State) : (withoutTrace s).mem = s.mem := rfl
@[simp] theorem withoutTrace_ip (s : State) : (withoutTrace s).ip = s.ip := rfl
@[simp] theorem withoutTrace_rbase (s : State) : (withoutTrace s).rbase = s.rbase := rfl
@[simp] theorem withoutTrace_status (s : State) : (withoutTrace s).status = s.status := rfl
@[simp] theorem withoutTrace_hcause (s : State) : (withoutTrace s).hcause = s.hcause := rfl
@[simp] theorem withoutTrace_fcode (s : State) : (withoutTrace s).fcode = s.fcode := rfl
@[simp] theorem withoutTrace_fval (s : State) : (withoutTrace s).fval = s.fval := rfl
@[simp] theorem withoutTrace_fpos (s : State) : (withoutTrace s).fpos = s.fpos := rfl
@[simp] theorem withoutTrace_a0 (s : State) : (withoutTrace s).a0 = s.a0 := rfl
@[simp] theorem withoutTrace_latch (s : State) : (withoutTrace s).latch = s.latch := rfl
@[simp] theorem withoutTrace_input (s : State) : (withoutTrace s).input = s.input := rfl
@[simp] theorem withoutTrace_inputEnd (s : State) : (withoutTrace s).inputEnd = s.inputEnd := rfl
@[simp] theorem withoutTrace_output (s : State) : (withoutTrace s).output = s.output := rfl
@[simp] theorem withoutTrace_sink (s : State) : (withoutTrace s).sink = s.sink := rfl
@[simp] theorem withoutTrace_trace (s : State) : (withoutTrace s).trace = none := rfl

end Sys2Proof.Machine
end

