-- ==== Sys2Proof/Laws/Ops.lean ====
section
/-! SUPPORT. For each shared operation, what it does: bounds-checked access, the resolver, the ALU, the collaborators, and
the shapes that several instructions share. -/

namespace Sys2Proof.Machine

/-! ## Integers and words -/

theorem fits_iff {v : Int} : fits v = true ↔ -9223372036854775808 ≤ v ∧ v ≤ 9223372036854775807 := by
  unfold fits
  rw [Bool.and_eq_true, decide_eq_true_eq, decide_eq_true_eq]
  rfl

/-- An integer that fits is the value of its word. -/
theorem toInt_ofInt_of_fits {v : Int} (h : fits v = true) : (BitVec.ofInt 64 v).toInt = v := by
  rw [fits_iff] at h
  rw [BitVec.toInt_ofInt]
  exact Int.bmod_eq_of_le (by norm_num; omega) (by norm_num; omega)

/-- The values of words are the integers that fit. -/
theorem fits_toInt (w : Word) : fits w.toInt = true := by
  rw [fits_iff]
  have h1 := BitVec.toInt_lt (x := w)
  have h2 := BitVec.le_toInt (x := w)
  norm_num at h1 h2
  omega

theorem toInt_bounds (w : Word) : -9223372036854775808 ≤ w.toInt ∧ w.toInt ≤ 9223372036854775807 :=
  fits_iff.1 (fits_toInt w)

/-- `fval` holds every payload exactly (R29, R91). -/
theorem toInt_ofInt_65 {v : Int} (h1 : -18446744073709551616 ≤ v) (h2 : v < 18446744073709551616) :
    (BitVec.ofInt 65 v).toInt = v := by
  rw [BitVec.toInt_ofInt]
  exact Int.bmod_eq_of_le (by norm_num; omega) (by norm_num; omega)

/-- A word of value `v >= 0` is the natural number `v`. -/
theorem toNat_of_toInt_nonneg {w : Word} (h : 0 ≤ w.toInt) : (w.toNat : Int) = w.toInt := by
  have hw := w.isLt
  rw [BitVec.toInt_eq_toNat_cond] at h ⊢
  by_cases hc : 2 * w.toNat < 2 ^ 64
  · rw [if_pos hc]
  · rw [if_neg hc] at h; omega

/-- The opcode value of a word that is not negative, in natural numbers. -/
theorem opcodeValue_toNat {w : Word} (h : 0 ≤ w.toInt) : opcodeValue w = ((w.toNat % 100 : Nat) : Int) := by
  rw [opcodeValue_of_nonneg h, ← toNat_of_toInt_nonneg h]; norm_cast

/-- A word is zero when its integer is. -/
theorem toInt_eq_zero_iff (c : Word) : c.toInt = 0 ↔ c = 0 :=
  ⟨fun h => BitVec.eq_of_toInt_eq (by rw [h]; rfl), fun h => by rw [h]; rfl⟩

/-- The capacities R7 allows. -/
theorem config_wf_iff {c : Config} : c.wf = true ↔ 1 ≤ c.cap ∧ c.cap ≤ 4611686018427387904 := by
  unfold Config.wf
  rw [Bool.and_eq_true, decide_eq_true_eq, decide_eq_true_eq]
  rfl

/-! ## Bounds-checked access (R41 to R43) -/

theorem inBounds_iff {s : State} {a : Int} : inBounds s a = true ↔ 0 ≤ a ∧ a < (s.cfg.cap : Int) := by
  simp [inBounds]

theorem not_inBounds {s : State} {a : Int} (h : a < 0 ∨ (s.cfg.cap : Int) ≤ a) : ¬ inBounds s a = true := by
  rw [inBounds_iff]; omega

theorem exists_nat_of_inBounds {s : State} {a : Int} (h : inBounds s a = true) : ∃ n : Nat, a = n ∧ n < s.cfg.cap := by
  obtain ⟨h0, h1⟩ := inBounds_iff.1 h
  exact ⟨a.toNat, by omega, by omega⟩

theorem inBounds_nat {s : State} {a : Nat} (h : a < s.cfg.cap) : inBounds s (a : Int) = true :=
  inBounds_iff.2 ⟨by omega, by omega⟩

theorem memRead_nat {s : State} {a : Nat} (h : a < s.cfg.cap) : memRead s (a : Int) = .ok (s.mem.read a) := by
  simp [memRead, inBounds_nat h]

theorem memRead_of_not_inBounds {s : State} {a : Int} (h : ¬ inBounds s a = true) :
    memRead s a = .error (outOfRange a) := by
  simp [memRead, h]

theorem memRead_error {s : State} {a : Int} {e : Raise} (h : memRead s a = .error e) :
    ¬ inBounds s a = true ∧ e = outOfRange a := by
  unfold memRead at h
  split at h
  · cases h
  · rename_i hb; cases h; exact ⟨hb, rfl⟩

theorem memWrite_nat {s : State} {a : Nat} (h : a < s.cfg.cap) (v : Word) :
    memWrite s (a : Int) v = .ok { s with mem := s.mem.write a v } := by
  simp [memWrite, inBounds_nat h]

theorem memWrite_of_not_inBounds {s : State} {a : Int} (h : ¬ inBounds s a = true) (v : Word) :
    memWrite s a v = .error (outOfRange a) := by
  simp [memWrite, h]

/-- A write answers the one changed cell or the fault. -/
theorem memWrite_cases (s : State) (a : Int) (v : Word) :
    (∃ n : Nat, a = n ∧ n < s.cfg.cap ∧ memWrite s a v = .ok { s with mem := s.mem.write n v }) ∨
      (¬ inBounds s a = true ∧ memWrite s a v = .error (outOfRange a)) := by
  by_cases h : inBounds s a = true
  · obtain ⟨n, rfl, hn⟩ := exists_nat_of_inBounds h
    exact .inl ⟨n, rfl, hn, memWrite_nat hn v⟩
  · exact .inr ⟨h, memWrite_of_not_inBounds h v⟩

/-! ## The resolver (R89 to R91) -/

theorem canBeWritten_iff {p : Param} : p.canBeWritten = true ↔ p.mode ≠ .immediate := by
  unfold Param.canBeWritten; cases p.mode <;> simp

theorem effectiveAddress_position (s : State) (r : Word) : effectiveAddress s ⟨.position, r⟩ = some r.toInt := rfl

theorem effectiveAddress_immediate (s : State) (r : Word) : effectiveAddress s ⟨.immediate, r⟩ = none := rfl

theorem effectiveAddress_relative (s : State) (r : Word) :
    effectiveAddress s ⟨.relative, r⟩ = some (s.rbase.toInt + r.toInt) := rfl

/-- The resolver looks at `rbase` only. -/
theorem effectiveAddress_congr {s t : State} (h : t.rbase = s.rbase) (p : Param) :
    effectiveAddress t p = effectiveAddress s p := by
  unfold effectiveAddress; rw [h]

/-- Effective addresses lie in `-2^64 .. 2^64 - 2` (R91). -/
theorem effectiveAddress_bounds {s : State} {p : Param} {a : Int} (h : effectiveAddress s p = some a) :
    -18446744073709551616 ≤ a ∧ a < 18446744073709551615 := by
  have h1 := toInt_bounds s.rbase
  have h2 := toInt_bounds p.raw
  unfold effectiveAddress at h
  split at h
  · cases h; omega
  · cases h
  · cases h; omega

theorem effectiveAddress_isSome_iff {s : State} {p : Param} :
    (∃ a, effectiveAddress s p = some a) ↔ p.canBeWritten = true := by
  unfold effectiveAddress Param.canBeWritten
  cases p.mode <;> simp

theorem effectiveAddress_ne_none {s : State} {p : Param} (h : p.canBeWritten = true) : effectiveAddress s p ≠ none := by
  obtain ⟨a, ha⟩ := (effectiveAddress_isSome_iff (s := s)).2 h
  simp [ha]

/-- Reading an operand looks at `cfg`, `mem` and `rbase` only. -/
theorem val_congr {s t : State} (hc : t.cfg = s.cfg) (hm : t.mem = s.mem) (hr : t.rbase = s.rbase) (p : Param) :
    val t p = val s p := by
  unfold val memRead inBounds
  rw [effectiveAddress_congr hr, hc, hm]

theorem val_of_address {s : State} {p : Param} {a : Nat} (h : effectiveAddress s p = some (a : Int))
    (ha : a < s.cfg.cap) : val s p = .ok (s.mem.read a) := by
  simp only [val, h, memRead_nat ha]

theorem val_of_bad_address {s : State} {p : Param} {a : Int} (h : effectiveAddress s p = some a)
    (ha : ¬ inBounds s a = true) : val s p = .error (outOfRange a) := by
  simp only [val, h, memRead_of_not_inBounds ha]

/-- The only fault of an operand is its address out of bounds. -/
theorem val_error {s : State} {p : Param} {e : Raise} (h : val s p = .error e) :
    ∃ a, effectiveAddress s p = some a ∧ ¬ inBounds s a = true ∧ e = outOfRange a := by
  unfold val at h
  split at h
  · cases h
  · rename_i a ha; exact ⟨a, ha, memRead_error h⟩

theorem store_of_address {s : State} {p : Param} {a : Nat} (h : effectiveAddress s p = some (a : Int))
    (ha : a < s.cfg.cap) (v : Word) : store s p v = .ok { s with mem := s.mem.write a v } := by
  simp only [store, h, memWrite_nat ha]

theorem store_of_bad_address {s : State} {p : Param} {a : Int} (h : effectiveAddress s p = some a)
    (ha : ¬ inBounds s a = true) (v : Word) : store s p v = .error (outOfRange a) := by
  simp only [store, h, memWrite_of_not_inBounds ha]

/-- A store to a destination that can be written changes one cell or faults on its address. -/
theorem store_cases {s : State} {p : Param} (hp : p.canBeWritten = true) (v : Word) :
    (∃ a : Nat, effectiveAddress s p = some (a : Int) ∧ a < s.cfg.cap ∧
        store s p v = .ok { s with mem := s.mem.write a v }) ∨
      (∃ a : Int, effectiveAddress s p = some a ∧ ¬ inBounds s a = true ∧ store s p v = .error (outOfRange a)) := by
  obtain ⟨a, ha⟩ := (effectiveAddress_isSome_iff (s := s)).2 hp
  by_cases h : inBounds s a = true
  · obtain ⟨n, rfl, hn⟩ := exists_nat_of_inBounds h
    exact .inl ⟨n, ha, hn, store_of_address ha hn v⟩
  · exact .inr ⟨a, ha, h, store_of_bad_address ha h v⟩

/-! ## The ALU (R92, R102) -/

theorem narrow_of_fits {v : Int} (h : fits v = true) (o : Overflow) : narrow o v = .ok (BitVec.ofInt 64 v) := by
  simp [narrow, h]

theorem narrow_fault {v : Int} (h : ¬ fits v = true) : narrow .fault v = .error overflowed := by
  simp [narrow, h]

theorem narrow_wrap (v : Int) : narrow .wrap v = .ok (BitVec.ofInt 64 v) := by
  simp [narrow]

/-- The only fault of the ALU is ArithmeticOverflow. -/
theorem narrow_error {o : Overflow} {v : Int} {e : Raise} (h : narrow o v = .error e) : e = overflowed := by
  unfold narrow at h
  split at h
  · cases h
  · split at h
    · cases h; rfl
    · cases h

/-! ## The collaborators (R111, R114) -/

theorem requestInput_cons {s : State} {a : Answer} {rest : List Answer} (h : s.input = a :: rest) :
    requestInput s = some (a, { s with input := rest }) := by
  simp [requestInput, h]

theorem requestInput_end {s : State} (h : s.input = []) (he : s.inputEnd = .readFailure) :
    requestInput s = some (.readFailure, s) := by
  simp [requestInput, h, he]

theorem requestInput_silent {s : State} (h : s.input = []) (he : s.inputEnd = .silent) : requestInput s = none := by
  simp [requestInput, h, he]

/-- A request takes the next answer, or finds none and is answered ReadFailure, or is never answered. -/
theorem requestInput_cases (s : State) :
    (∃ a rest, s.input = a :: rest ∧ requestInput s = some (a, { s with input := rest })) ∨
      (s.input = [] ∧ s.inputEnd = .readFailure ∧ requestInput s = some (.readFailure, s)) ∨
      (s.input = [] ∧ s.inputEnd = .silent ∧ requestInput s = none) := by
  cases h : s.input with
  | cons a rest => exact .inl ⟨a, rest, rfl, requestInput_cons h⟩
  | nil =>
    cases he : s.inputEnd with
    | readFailure => exact .inr (.inl ⟨rfl, rfl, requestInput_end h he⟩)
    | silent => exact .inr (.inr ⟨rfl, rfl, requestInput_silent h he⟩)

theorem emitOutput_accepting {s : State} (h : s.sink = .accepting) (x : Word) :
    emitOutput s x = some { s with output := s.output ++ [x] } := by
  simp [emitOutput, h]

theorem emitOutput_stalled {s : State} (h : s.sink = .stalled) (x : Word) : emitOutput s x = none := by
  simp [emitOutput, h]

/-! ## Ends of a step -/

@[simp] theorem finish_ok (s t : State) : finish s (.ok t) = .next (retire t) := rfl

@[simp] theorem finish_error (s : State) (e : Raise) : finish s (.error e) = .next (raise s e) := rfl

/-! ## The shared shapes of phase X -/

theorem execRRW_immediate {p2 : Param} (h : ¬ p2.canBeWritten = true) (f : Word → Word → Except Raise Word)
    (p0 p1 : Param) (s : State) : execRRW f p0 p1 p2 s = .next (raise s badDestination) := by
  simp [execRRW, h]

theorem execRRW_val0 {f : Word → Word → Except Raise Word} {p0 p1 p2 : Param} {s : State} {e : Raise}
    (hp : p2.canBeWritten = true) (h0 : val s p0 = .error e) : execRRW f p0 p1 p2 s = .next (raise s e) := by
  simp [execRRW, hp, h0, bind, Except.bind]

theorem execRRW_val1 {f : Word → Word → Except Raise Word} {p0 p1 p2 : Param} {s : State} {x : Word} {e : Raise}
    (hp : p2.canBeWritten = true) (h0 : val s p0 = .ok x) (h1 : val s p1 = .error e) :
    execRRW f p0 p1 p2 s = .next (raise s e) := by
  simp [execRRW, hp, h0, h1, bind, Except.bind]

theorem execRRW_result_error {f : Word → Word → Except Raise Word} {p0 p1 p2 : Param} {s : State} {x y : Word}
    {e : Raise} (hp : p2.canBeWritten = true) (h0 : val s p0 = .ok x) (h1 : val s p1 = .ok y)
    (hf : f x y = .error e) : execRRW f p0 p1 p2 s = .next (raise s e) := by
  simp [execRRW, hp, h0, h1, hf, bind, Except.bind]

theorem execRRW_result {f : Word → Word → Except Raise Word} {p0 p1 p2 : Param} {s : State} {x y r : Word}
    (hp : p2.canBeWritten = true) (h0 : val s p0 = .ok x) (h1 : val s p1 = .ok y) (hf : f x y = .ok r) :
    execRRW f p0 p1 p2 s = finish s (store s p2 r) := by
  simp [execRRW, hp, h0, h1, hf, bind, Except.bind]

/-- The instruction completes: the result is stored at the destination and nothing else changes. -/
theorem execRRW_completes {f : Word → Word → Except Raise Word} {p0 p1 p2 : Param} {s : State} {x y r : Word} {a : Nat}
    (h0 : val s p0 = .ok x) (h1 : val s p1 = .ok y) (hf : f x y = .ok r)
    (ha : effectiveAddress s p2 = some (a : Int)) (hc : a < s.cfg.cap) :
    execRRW f p0 p1 p2 s = .next { s with mem := s.mem.write a r, latch := none } := by
  rw [execRRW_result (effectiveAddress_isSome_iff.1 ⟨_, ha⟩) h0 h1 hf, store_of_address ha hc]
  rfl

/-- A fault an instruction takes in phase X: its code, its payload, and that `fval` holds the payload exactly. -/
structure GoodRaise (s : State) (e : Raise) : Prop where
  code : e.code ≠ .noFault
  payload : payloadOk s.cfg.cap e.value e.code
  low : -18446744073709551616 ≤ e.value
  high : e.value < 18446744073709551616

theorem goodRaise_outOfRange {s : State} {p : Param} {a : Int} (h : effectiveAddress s p = some a)
    (hb : ¬ inBounds s a = true) : GoodRaise s (outOfRange a) where
  code := by simp [outOfRange]
  payload := by
    rw [inBounds_iff] at hb
    show a < 0 ∨ (s.cfg.cap : Int) ≤ a
    omega
  low := (effectiveAddress_bounds h).1
  high := by have := (effectiveAddress_bounds h).2; show a < _; omega

theorem goodRaise_zero {s : State} {c : FaultCode} (hc : c ≠ .noFault) (hp : payloadOk s.cfg.cap 0 c) :
    GoodRaise s ⟨c, 0⟩ := ⟨hc, hp, by simp, by simp⟩

theorem goodRaise_of_val {s : State} {p : Param} {e : Raise} (h : val s p = .error e) : GoodRaise s e := by
  obtain ⟨a, ha, hb, rfl⟩ := val_error h
  exact goodRaise_outOfRange ha hb

/-- Everything a format RRW instruction can do: take a fault with nothing else changed, or change the destination cell. -/
theorem execRRW_cases {f : Word → Word → Except Raise Word} (hf : ∀ x y e, f x y = .error e → e = overflowed)
    {p0 p1 p2 : Param} {s : State} {o : Host.Outcome State Fault Refusal} (h : execRRW f p0 p1 p2 s = o) :
    (∃ e, GoodRaise s e ∧ o = .next (raise s e)) ∨
      (∃ (a : Nat) (r : Word), effectiveAddress s p2 = some (a : Int) ∧ a < s.cfg.cap ∧
        o = .next { s with mem := s.mem.write a r, latch := none }) := by
  subst h
  by_cases hp : p2.canBeWritten = true
  · cases h0 : val s p0 with
    | error e => exact .inl ⟨e, goodRaise_of_val h0, execRRW_val0 hp h0⟩
    | ok x =>
      cases h1 : val s p1 with
      | error e => exact .inl ⟨e, goodRaise_of_val h1, execRRW_val1 hp h0 h1⟩
      | ok y =>
        cases hr : f x y with
        | error e =>
          refine .inl ⟨e, ?_, execRRW_result_error hp h0 h1 hr⟩
          rw [hf _ _ _ hr]
          exact goodRaise_zero (c := .arithmeticOverflow) (by simp) rfl
        | ok r =>
          rw [execRRW_result hp h0 h1 hr]
          rcases store_cases (s := s) hp r with ⟨a, ha, hc, hs⟩ | ⟨a, ha, hb, hs⟩
          · exact .inr ⟨a, r, ha, hc, by rw [hs]; rfl⟩
          · exact .inl ⟨_, goodRaise_outOfRange ha hb, by rw [hs]; rfl⟩
  · exact .inl ⟨badDestination, goodRaise_zero (c := .invalidWriteDestination) (by simp) rfl, execRRW_immediate hp f p0 p1 s⟩

theorem jumpIf_val0 {c : Word → Bool} {p0 p1 : Param} {s : State} {e : Raise} (h0 : val s p0 = .error e) :
    jumpIf c p0 p1 s = .next (raise s e) := by
  simp [jumpIf, h0, bind, Except.bind]

theorem jumpIf_val1 {c : Word → Bool} {p0 p1 : Param} {s : State} {x : Word} {e : Raise} (h0 : val s p0 = .ok x)
    (h1 : val s p1 = .error e) : jumpIf c p0 p1 s = .next (raise s e) := by
  simp [jumpIf, h0, h1, bind, Except.bind]

theorem jumpIf_completes {c : Word → Bool} {p0 p1 : Param} {s : State} {x t : Word} (h0 : val s p0 = .ok x)
    (h1 : val s p1 = .ok t) :
    jumpIf c p0 p1 s = .next { s with ip := if c x = true then t else s.ip, latch := none } := by
  simp only [jumpIf, h0, h1, bind, Except.bind, finish_ok]
  split <;> rfl

/-- Everything a jump can do: take a fault with nothing else changed, or leave `ip` at the target or where it was. -/
theorem jumpIf_cases {c : Word → Bool} {p0 p1 : Param} {s : State} {o : Host.Outcome State Fault Refusal}
    (h : jumpIf c p0 p1 s = o) :
    (∃ e, GoodRaise s e ∧ o = .next (raise s e)) ∨ (∃ a, o = .next { s with ip := a, latch := none }) := by
  subst h
  cases h0 : val s p0 with
  | error e => exact .inl ⟨e, goodRaise_of_val h0, jumpIf_val0 h0⟩
  | ok x =>
    cases h1 : val s p1 with
    | error e => exact .inl ⟨e, goodRaise_of_val h1, jumpIf_val1 h0 h1⟩
    | ok t => exact .inr ⟨_, jumpIf_completes h0 h1⟩

end Sys2Proof.Machine
end

