-- ==== Sys2Proof/Laws/Exec.lean ====
section
/-! SUPPORT. What an instruction and a step can do, said once: every later proof about all instructions or all steps is a
case analysis of `exec_effect` and `step_cases`. -/

namespace Sys2Proof.Machine

/-- Every effect of phase X. -/
inductive ExecEffect (i : Instr) (s : State) : State → Prop where
  /-- A fault, nothing else changed. -/
  | fault (e : Raise) (he : GoodRaise s e) : ExecEffect i s (raise s e)
  /-- A fault of Input after its answer was consumed. -/
  | inputFault (p : Param) (a : Answer) (rest : List Answer) (e : Raise) (hi : i = .input p) (hin : s.input = a :: rest)
      (he : GoodRaise s e) : ExecEffect i s (raise { s with input := rest } e)
  /-- The destination cell was written. -/
  | wrote (p : Param) (a : Nat) (r : Word) (hi : ∀ p, i ≠ .input p) (hp : i.dest = some p)
      (ha : effectiveAddress s p = some (a : Int)) (hc : a < s.cfg.cap) :
      ExecEffect i s { s with mem := s.mem.write a r, latch := none }
  /-- Input stored the value it was given. -/
  | inputWrote (p : Param) (v : Word) (rest : List Answer) (a : Nat) (hi : i = .input p) (hin : s.input = .value v :: rest)
      (ha : effectiveAddress s p = some (a : Int)) (hc : a < s.cfg.cap) :
      ExecEffect i s { s with input := rest, mem := s.mem.write a v, latch := none }
  /-- Output handed its word over. -/
  | emitted (p : Param) (x : Word) (hi : i = .output p) (hx : val s p = .ok x) :
      ExecEffect i s { s with output := s.output ++ [x], latch := none }
  /-- A jump left `ip` at its target or where it was. -/
  | jumped (p0 p1 : Param) (a : Word) (hi : i = .jnz p0 p1 ∨ i = .jz p0 p1) :
      ExecEffect i s { s with ip := a, latch := none }
  /-- The relative base was adjusted. -/
  | moved (p : Param) (n : Word) (hi : i = .arb p) : ExecEffect i s { s with rbase := n, latch := none }
  /-- The machine halted. -/
  | halted (hi : i = .hlt) : ExecEffect i s (haltWith s .haltInstr)
  /-- The step waits on its collaborator. -/
  | waited (hw : waits i = true) (hf : i.wellFormed = true) : ExecEffect i s (waitOn s i)

theorem aluAdd_error {o : Overflow} {x y : Word} {e : Raise} (h : aluAdd o x y = .error e) : e = overflowed :=
  narrow_error h

theorem aluMul_error {o : Overflow} {x y : Word} {e : Raise} (h : aluMul o x y = .error e) : e = overflowed :=
  narrow_error h

/-- The four instructions of format RRW have the effects of `execRRW`. -/
theorem execRRW_effect {i : Instr} {f : Word → Word → Except Raise Word} {p0 p1 p2 : Param} {s : State}
    (hi : ∀ p, i ≠ .input p) (hd : i.dest = some p2) (hf : ∀ x y e, f x y = .error e → e = overflowed) :
    ∃ t, execRRW f p0 p1 p2 s = .next t ∧ ExecEffect i s t := by
  rcases execRRW_cases hf (s := s) (p0 := p0) (p1 := p1) (p2 := p2) rfl with ⟨e, he, h⟩ | ⟨a, r, ha, hc, h⟩
  · exact ⟨_, h, .fault e he⟩
  · exact ⟨_, h, .wrote p2 a r hi hd ha hc⟩

theorem jumpIf_effect {i : Instr} {c : Word → Bool} {p0 p1 : Param} {s : State} (hi : i = .jnz p0 p1 ∨ i = .jz p0 p1) :
    ∃ t, jumpIf c p0 p1 s = .next t ∧ ExecEffect i s t := by
  rcases jumpIf_cases (s := s) (c := c) (p0 := p0) (p1 := p1) rfl with ⟨e, he, h⟩ | ⟨a, h⟩
  · exact ⟨_, h, .fault e he⟩
  · exact ⟨_, h, .jumped p0 p1 a hi⟩

theorem execInput_effect (p : Param) (s : State) : ∃ t, execInput p s = .next t ∧ ExecEffect (.input p) s t := by
  by_cases hp : p.canBeWritten = true
  · rcases requestInput_cases s with ⟨a, rest, hin, hr⟩ | ⟨hin, he, hr⟩ | ⟨hin, he, hr⟩
    · cases a with
      | readFailure =>
        exact ⟨_, by simp only [execInput, hp, hr, if_pos],
          .inputFault p _ rest readFailed rfl hin (goodRaise_zero (c := .inputReadFailure) (by simp) rfl)⟩
      | parseFailure =>
        exact ⟨_, by simp only [execInput, hp, hr, if_pos],
          .inputFault p _ rest parseFailed rfl hin (goodRaise_zero (c := .inputParseFailure) (by simp) rfl)⟩
      | value v =>
        have hx : execInput p s = finish { s with input := rest } (store { s with input := rest } p v) := by
          simp only [execInput, hp, hr, if_pos]
        rcases store_cases (s := { s with input := rest }) hp v with ⟨n, ha, hc, hs⟩ | ⟨n, ha, hb, hs⟩
        · exact ⟨_, by rw [hx, hs]; rfl, .inputWrote p v rest n rfl hin ha hc⟩
        · exact ⟨_, by rw [hx, hs]; rfl, .inputFault p _ rest _ rfl hin (goodRaise_outOfRange (p := p) ha hb)⟩
    · exact ⟨_, by simp only [execInput, hp, hr, if_pos],
        .fault readFailed (goodRaise_zero (c := .inputReadFailure) (by simp) rfl)⟩
    · exact ⟨_, by simp only [execInput, hp, hr, if_pos], .waited rfl hp⟩
  · exact ⟨_, by simp only [execInput, hp, if_neg, Bool.false_eq_true, not_false_eq_true],
      .fault badDestination (goodRaise_zero (c := .invalidWriteDestination) (by simp) rfl)⟩

theorem execOutput_effect (p : Param) (s : State) : ∃ t, execOutput p s = .next t ∧ ExecEffect (.output p) s t := by
  cases hv : val s p with
  | error e => exact ⟨_, by simp only [execOutput, hv], .fault e (goodRaise_of_val hv)⟩
  | ok x =>
    cases hs : s.sink with
    | accepting =>
      exact ⟨_, by simp only [execOutput, hv, emitOutput_accepting hs x]; rfl, .emitted p x rfl hv⟩
    | stalled => exact ⟨_, by simp only [execOutput, hv, emitOutput_stalled hs x], .waited rfl rfl⟩

theorem execArb_effect (p : Param) (s : State) : ∃ t, execArb p s = .next t ∧ ExecEffect (.arb p) s t := by
  cases hv : val s p with
  | error e => exact ⟨_, by simp only [execArb, hv, bind, Except.bind, finish_error], .fault e (goodRaise_of_val hv)⟩
  | ok x =>
    cases hn : aluAdd s.cfg.ovf s.rbase x with
    | error e =>
      refine ⟨_, by simp only [execArb, hv, hn, bind, Except.bind, finish_error], .fault e ?_⟩
      rw [aluAdd_error hn]
      exact goodRaise_zero (c := .arithmeticOverflow) (by simp) rfl
    | ok n => exact ⟨_, by simp only [execArb, hv, hn, bind, Except.bind, finish_ok]; rfl, .moved p n rfl⟩

/-- Every instruction answers a next state, by one of the effects. -/
theorem exec_effect (i : Instr) (s : State) : ∃ t, exec i s = .next t ∧ ExecEffect i s t := by
  cases i with
  | add p0 p1 p2 => exact execRRW_effect (by simp) rfl fun _ _ _ => aluAdd_error
  | mul p0 p1 p2 => exact execRRW_effect (by simp) rfl fun _ _ _ => aluMul_error
  | input p0 => exact execInput_effect p0 s
  | output p0 => exact execOutput_effect p0 s
  | jnz p0 p1 => exact jumpIf_effect (.inl rfl)
  | jz p0 p1 => exact jumpIf_effect (.inr rfl)
  | lt p0 p1 p2 => exact execRRW_effect (by simp) rfl (by simp)
  | eq p0 p1 p2 => exact execRRW_effect (by simp) rfl (by simp)
  | arb p0 => exact execArb_effect p0 s
  | hlt => exact ⟨_, rfl, .halted rfl⟩

theorem exec_effect_of {i : Instr} {s t : State} (h : exec i s = .next t) : ExecEffect i s t := by
  obtain ⟨u, hu, he⟩ := exec_effect i s
  rw [hu] at h
  cases h
  exact he

/-! ## Fetching -/

theorem wordsFrom_length (m : Memory) (cap a n : Nat) : (wordsFrom m cap a n).length = min n (cap - a) := by
  induction n generalizing a with
  | zero => simp [wordsFrom]
  | succ n ih =>
    unfold wordsFrom
    split
    · simp only [List.length_cons, ih]; omega
    · simp; omega

theorem wordsFrom_getElem? (m : Memory) (cap a n k : Nat) :
    (wordsFrom m cap a n)[k]? = if k < n ∧ a + k < cap then some (m.read (a + k)) else none := by
  induction n generalizing a k with
  | zero => simp [wordsFrom]
  | succ n ih =>
    unfold wordsFrom
    split
    · rename_i h
      cases k with
      | zero => simp [h]
      | succ k => simp only [List.getElem?_cons_succ, ih]; congr 1; · apply propext; omega
                  · simp only [Nat.add_assoc, Nat.add_comm 1]
    · rename_i h
      have : ¬ (k < n + 1 ∧ a + k < cap) := by omega
      rw [if_neg this]; simp

theorem fetchWords_cons {s : State} {a : Nat} (h : a < s.cfg.cap) :
    fetchWords s a = s.mem.read a :: wordsFrom s.mem s.cfg.cap (a + 1) 3 := by
  simp [fetchWords, maxLength, wordsFrom, h]

/-- A rejected opcode word at `a` is a fault whose payload `fval` holds exactly. -/
theorem goodRaise_decodeFault {s : State} {a : Nat} {e : DecodeError} (ha : a < s.cfg.cap)
    (hb : (a : Int) ≤ 9223372036854775807) (h : decode (fetchWords s a) = .error e) :
    GoodRaise s (decodeFault a e) := by
  rw [fetchWords_cons ha] at h
  rcases decode_error h with ⟨hn, rfl⟩ | ⟨o, ho, ⟨k, hk, hl, rfl⟩ | ⟨k, hk, hd, rfl⟩ | rfl⟩
  · have := opcodeValue_bounds (s.mem.read a)
    have h99 : opcodeValue (s.mem.read a) ≠ 99 := by
      intro h99; rw [h99] at hn; exact absurd hn (by decide)
    refine ⟨by simp [decodeFault, badOpcode], ⟨by simp only [decodeFault, badOpcode]; omega,
      by simp only [decodeFault, badOpcode]; omega, hn⟩, ?_, ?_⟩ <;> simp only [decodeFault, badOpcode] <;> omega
  · have h3 := o.count_le
    rw [wordsFrom_length] at hl
    refine ⟨by simp [decodeFault, outOfRange], ?_, ?_, ?_⟩
    · show (_ : Int) < 0 ∨ (_ : Int) ≤ _
      simp only [decodeFault, outOfRange]; omega
    · simp only [decodeFault, outOfRange]; omega
    · simp only [decodeFault, outOfRange]; omega
  · have h9 := modeDigit_le (s.mem.read a) k
    refine ⟨by simp [decodeFault, badMode], ?_, ?_, ?_⟩
    · show (3 : Int) ≤ _ ∧ _ ≤ (9 : Int)
      simp only [decodeFault, badMode]; omega
    · simp only [decodeFault, badMode]; omega
    · simp only [decodeFault, badMode]; omega
  · exact goodRaise_zero (c := .invalidWriteDestination) (by simp) rfl

/-- Phases B to W: the boundary, a negative `ip`, a rejected opcode word, or an instruction ready to execute. -/
theorem fetchDecode_cases (s : State) :
    ((s.cfg.cap : Int) ≤ s.ip.toInt ∧ fetchDecode s = .error (haltWith s .boundary)) ∨
      (s.ip.toInt < 0 ∧ fetchDecode s = .error (raise { s with a0 := s.ip } (outOfRange s.ip.toInt))) ∨
      (∃ a : Nat, s.ip.toInt = a ∧ a < s.cfg.cap ∧
        ((∃ e, decode (fetchWords s a) = .error e ∧
            fetchDecode s =
              .error (raise { s with a0 := s.ip, ip := ipAfter s.ip (parametersPassed e) } (decodeFault a e))) ∨
          (∃ i rest, decode (fetchWords s a) = .ok (i, rest) ∧
            fetchDecode s = .ok (i, decoded s (s.mem.read a) i)))) := by
  unfold fetchDecode
  by_cases hB : (s.cfg.cap : Int) ≤ s.ip.toInt
  · exact .inl ⟨hB, by rw [if_pos hB]⟩
  · refine .inr ?_
    rw [if_neg hB]
    by_cases hb : inBounds s s.ip.toInt = true
    · obtain ⟨a, ha, hc⟩ := exists_nat_of_inBounds hb
      refine .inr ⟨a, ha, hc, ?_⟩
      rw [ha, memRead_nat hc, Int.toNat_natCast]
      cases hd : decode (fetchWords s a) with
      | error e => exact .inl ⟨e, rfl, rfl⟩
      | ok r => exact .inr ⟨r.1, r.2, rfl, rfl⟩
    · refine .inl ⟨?_, by rw [memRead_of_not_inBounds hb]⟩
      rw [inBounds_iff] at hb; omega

/-! ## One step -/

theorem step_of_ended {s : State} (h : s.status ≠ .running) : step s = .next s := by
  unfold step
  cases hs : s.status with
  | running => exact absurd hs h
  | halted => rfl
  | faulted => rfl

theorem step_of_latch {s : State} {i : Instr} (h : s.status = .running) (hl : s.latch = some i) : step s = exec i s := by
  simp only [step, h, hl]

theorem step_of_stopped {s t : State} (h : Ready s) (hf : fetchDecode s = .error t) : step s = .next t := by
  simp only [step, h.1, h.2, hf]

theorem step_of_decoded {s t : State} {i : Instr} (h : Ready s) (hf : fetchDecode s = .ok (i, t)) :
    step s = exec i t := by
  simp only [step, h.1, h.2, hf]

/-- Everything a step can be: nothing (Halted, Faulted), a wait that goes on, the boundary, a negative `ip`, a rejected
opcode word, or a decoded instruction executed. -/
theorem step_cases (s : State) :
    (s.status ≠ .running ∧ step s = .next s) ∨
      (∃ i, s.status = .running ∧ s.latch = some i ∧ step s = exec i s) ∨
      (Ready s ∧ (s.cfg.cap : Int) ≤ s.ip.toInt ∧ step s = .next (haltWith s .boundary)) ∨
      (Ready s ∧ s.ip.toInt < 0 ∧ step s = .next (raise { s with a0 := s.ip } (outOfRange s.ip.toInt))) ∨
      (∃ a : Nat, Ready s ∧ s.ip.toInt = a ∧ a < s.cfg.cap ∧
        ((∃ e, decode (fetchWords s a) = .error e ∧
            step s =
              .next (raise { s with a0 := s.ip, ip := ipAfter s.ip (parametersPassed e) } (decodeFault a e))) ∨
          (∃ i rest, decode (fetchWords s a) = .ok (i, rest) ∧
            step s = exec i (decoded s (s.mem.read a) i)))) := by
  by_cases hs : s.status = .running
  · refine .inr ?_
    cases hl : s.latch with
    | some i => exact .inl ⟨i, hs, rfl, step_of_latch hs hl⟩
    | none =>
      have hR : Ready s := ⟨hs, hl⟩
      refine .inr ?_
      rcases fetchDecode_cases s with ⟨h, hf⟩ | ⟨h, hf⟩ | ⟨a, ha, hc, ⟨e, hd, hf⟩ | ⟨i, rest, hd, hf⟩⟩
      · exact .inl ⟨hR, h, step_of_stopped hR hf⟩
      · exact .inr (.inl ⟨hR, h, step_of_stopped hR hf⟩)
      · exact .inr (.inr ⟨a, hR, ha, hc, .inl ⟨e, hd, step_of_stopped hR hf⟩⟩)
      · exact .inr (.inr ⟨a, hR, ha, hc, .inr ⟨i, rest, hd, step_of_decoded hR hf⟩⟩)
  · exact .inl ⟨hs, step_of_ended hs⟩

/-! ## The address after an instruction -/

theorem ipAfter_eq (a : Word) (n : Nat) : ipAfter a n = a + 1 + BitVec.ofNat 64 n := by
  unfold ipAfter; rw [BitVec.ofNat_add, BitVec.add_assoc]; rfl

/-- An address of memory is far below the greatest word. -/
theorem ip_le {s : State} {a : Nat} (h : s.ip.toInt = a) : (a : Int) ≤ 9223372036854775807 := by
  have := toInt_bounds s.ip; omega

/-- Under R7 the address after an instruction never wraps (R23). -/
theorem ipAfter_toInt {s : State} {n k : Nat} (hcf : s.cfg.wf = true) (hn : s.ip.toInt = n) (hc : n < s.cfg.cap)
    (hk : k ≤ 3) : (ipAfter s.ip k).toInt = n + 1 + k := by
  have hcap := (config_wf_iff.1 hcf).2
  have h0 : ∀ m : Nat, m < 9223372036854775808 → (BitVec.ofNat 64 m).toInt = m := by
    intro m hm
    rw [BitVec.toInt_eq_toNat_cond, BitVec.toNat_ofNat, Nat.mod_eq_of_lt (by omega), if_pos (by omega)]
  have hip : s.ip = BitVec.ofNat 64 n := BitVec.eq_of_toInt_eq (by rw [hn, h0 n (by omega)])
  unfold ipAfter
  rw [hip, ← BitVec.ofNat_add, h0 _ (by omega)]
  push_cast; ring

/-! ## The instruction a step executes -/

theorem current_of_latch {s : State} {i : Instr} (h : s.status = .running) (hl : s.latch = some i) :
    current s = some i := by
  simp only [current, h, hl]

theorem current_of_decode {s : State} {a : Nat} {i : Instr} {rest : List Word} (h : Ready s) (ha : s.ip.toInt = a)
    (hc : a < s.cfg.cap) (hd : decode (fetchWords s a) = .ok (i, rest)) : current s = some i := by
  simp only [current, h.1, h.2, ha, Int.toNat_natCast, hd]
  rw [if_pos]; omega

/-- A rejected opcode word: the fault of the rejection, at the address the step began at. -/
theorem step_of_rejected {s : State} {n : Nat} {e : DecodeError} (hR : Ready s) (hn : s.ip.toInt = n)
    (hc : n < s.cfg.cap) (hd : decode (fetchWords s n) = .error e) :
    step s = .next (raise { s with a0 := s.ip, ip := ipAfter s.ip (parametersPassed e) } (decodeFault n e)) := by
  rcases step_cases s with ⟨h, -⟩ | ⟨i, -, hl, -⟩ | ⟨-, hb, -⟩ | ⟨-, hneg, -⟩ |
    ⟨a, -, ha, -, ⟨e', hd', he⟩ | ⟨i, rest, hd', -⟩⟩
  · exact absurd hR.1 h
  · rw [hR.2] at hl; cases hl
  · omega
  · omega
  · obtain rfl : n = a := by omega
    rw [hd] at hd'; cases hd'; exact he
  · obtain rfl : n = a := by omega
    rw [hd] at hd'; cases hd'

/-- The same in the terms of the statements. -/
theorem rejected_faultsAs {s : State} {n : Nat} {e : DecodeError} (hR : Ready s) (hn : s.ip.toInt = n)
    (hc : n < s.cfg.cap) (hd : decode (fetchWords s n) = .error e) :
    ∃ t, step s = .next t ∧ FaultsAs s t (decodeFault n e).code (decodeFault n e).value := by
  have g := goodRaise_decodeFault hc (ip_le hn) hd
  exact ⟨_, step_of_rejected hR hn hc hd,
    ⟨rfl, rfl, toInt_ofInt_65 g.low g.high, rfl, rfl, rfl, rfl, rfl, rfl, rfl, rfl⟩⟩

/-- What phase X leaves when it faults (R161). -/
theorem ExecEffect.faulted {i : Instr} {s t : State} (h : ExecEffect i s t) (hs : s.status = .running)
    (ht : t.status = .faulted) :
    t.mem = s.mem ∧ t.rbase = s.rbase ∧ t.output = s.output ∧ t.hcause = s.hcause ∧ t.cfg = s.cfg ∧
      t.fcode ≠ .noFault ∧ t.latch = none ∧ t.fpos = s.a0 ∧ t.ip = s.ip := by
  cases h with
  | fault e he => exact ⟨rfl, rfl, rfl, rfl, rfl, he.code, rfl, rfl, rfl⟩
  | inputFault p a rest e hi hin he => exact ⟨rfl, rfl, rfl, rfl, rfl, he.code, rfl, rfl, rfl⟩
  | halted hi => simp at ht
  | _ => simp [hs] at ht

/-- A step that is neither over at once nor a rejection executes `i` from a state `u` that agrees with `s` in all but `a0`,
`ip`, `latch` and `trace`. -/
structure Executes (s : State) (i : Instr) (u : State) : Prop where
  current : current s = some i
  running : s.status = .running
  cfg : u.cfg = s.cfg
  mem : u.mem = s.mem
  rbase : u.rbase = s.rbase
  status : u.status = s.status
  hcause : u.hcause = s.hcause
  fcode : u.fcode = s.fcode
  fval : u.fval = s.fval
  fpos : u.fpos = s.fpos
  input : u.input = s.input
  inputEnd : u.inputEnd = s.inputEnd
  output : u.output = s.output
  sink : u.sink = s.sink
  from_latch_or_decode : (u = s ∧ s.latch = some i) ∨
    (∃ a : Nat, Ready s ∧ s.ip.toInt = a ∧ a < s.cfg.cap ∧ u = decoded s (s.mem.read a) i ∧ i.wellFormed = true)

/-- Every step is: an instruction executed, no step performed, the boundary, or a fault of phases F to W. -/
theorem step_effect {s t : State} (h : step s = .next t) :
    (∃ i u, Executes s i u ∧ ExecEffect i u t) ∨
      (t = s ∧ s.status ≠ .running) ∨
      (t = haltWith s .boundary ∧ Ready s ∧ (s.cfg.cap : Int) ≤ s.ip.toInt) ∨
      (∃ ip e, Ready s ∧ GoodRaise s e ∧ t = raise { s with a0 := s.ip, ip := ip } e ∧ current s = none) := by
  rcases step_cases s with ⟨hn, he⟩ | ⟨i, hs, hl, he⟩ | ⟨hR, hb, he⟩ | ⟨hR, hneg, he⟩ |
    ⟨a, hR, ha, hc, ⟨e, hd, he⟩ | ⟨i, rest, hd, he⟩⟩
  · rw [he] at h; cases h; exact .inr (.inl ⟨rfl, hn⟩)
  · rw [he] at h
    exact .inl ⟨i, s, ⟨current_of_latch hs hl, hs, rfl, rfl, rfl, rfl, rfl, rfl, rfl, rfl, rfl, rfl, rfl, rfl,
      .inl ⟨rfl, hl⟩⟩, exec_effect_of h⟩
  · rw [he] at h; cases h; exact .inr (.inr (.inl ⟨rfl, hR, hb⟩))
  · rw [he] at h; cases h
    refine .inr (.inr (.inr ⟨s.ip, _, hR, ?_, rfl, ?_⟩))
    · exact goodRaise_outOfRange (s := s) (p := ⟨.position, s.ip⟩) rfl (not_inBounds (.inl hneg))
    · simp only [current, hR.1, hR.2]; rw [if_neg]; omega
  · rw [he] at h; cases h
    refine .inr (.inr (.inr ⟨_, _, hR, goodRaise_decodeFault hc (ip_le ha) hd, rfl, ?_⟩))
    simp only [current, hR.1, hR.2, ha, Int.toNat_natCast, hd, ite_self]
  · rw [he] at h
    have hwf : i.wellFormed = true := by rw [fetchWords_cons hc] at hd; exact (decode_ok hd).2.2.1
    exact .inl ⟨i, decoded s (s.mem.read a) i, ⟨current_of_decode hR ha hc hd, hR.1, rfl, rfl, rfl, rfl, rfl, rfl, rfl, rfl, rfl,
      rfl, rfl, rfl, .inr ⟨a, hR, ha, hc, rfl, hwf⟩⟩, exec_effect_of h⟩

/-! ## Loading -/

/-- What a load that is not refused says (R182). -/
theorem load_next {cfg : Config} {image : List Int} {env : Environment} {s : State} (h : load cfg image env = .next s) :
    cfg.wf = true ∧ image.length ≤ cfg.cap ∧ image.all fits = true ∧
      s = { State.reset with
        cfg := cfg
        mem := Memory.writeAll [] 0 (image.map (BitVec.ofInt 64))
        input := env.input
        inputEnd := env.inputEnd
        sink := env.sink
        trace := if env.observed then some [] else none } := by
  unfold load at h
  split at h
  · cases h
  · split at h
    · cases h
    · split at h
      · cases h
      · simp_all

end Sys2Proof.Machine
end

