-- ==== Sys2Proof/Laws/PerInstr.lean ====
section
/-! SUPPORT. Statements about every instruction as syntax, one lemma per constructor. -/

/-- The words of an instruction (R60, R61, R63, R72, R73): one opcode word and one word per parameter; the opcode word has
no digit above the last parameter's, its two low digits are the opcode and digit `2 + k` is parameter `k`'s mode digit. -/
def Sys2Proof.Laws.EncodeShape.Statement (i : Sys2Proof.Instr) : Prop :=
  ∃ n : Nat, Sys2Proof.encode i = BitVec.ofNat 64 n :: i.raws ∧
    (Sys2Proof.encode i).length = 1 + i.count ∧
    n < 10 ^ (2 + i.count) ∧
    n % 100 = i.op.code ∧
    ∀ k (h : k < i.params.length), n / 10 ^ (2 + k) % 10 = (i.params[k]).mode.digit

/-- What all ten lemmas are: the digits of `OP + 100 * m`, `m` the number the mode digits make. -/
theorem Sys2Proof.Laws.encodeShape_general (i : Sys2Proof.Instr) : Sys2Proof.Laws.EncodeShape.Statement i := by
  refine ⟨Sys2Proof.canonicalOpcode i, rfl, ?_, ?_, Sys2Proof.canonicalOpcode_mod i, fun k h => ?_⟩
  · simp only [Sys2Proof.encode, Sys2Proof.Instr.raws, Sys2Proof.Instr.count, List.length_cons, List.length_map]
    omega
  · have h1 := Sys2Proof.modeNumber_lt i.params
    have h2 := (Sys2Proof.Op.code_pos i.op).2
    unfold Sys2Proof.canonicalOpcode Sys2Proof.Instr.count
    rw [pow_add]
    omega
  · have := Sys2Proof.modeDigit_canonical i k h
    rwa [Sys2Proof.modeDigit, Sys2Proof.decimalDigit, Sys2Proof.canonicalOpcode_toNat] at this

theorem Sys2Proof.Laws.EncodeShape.add (p0 p1 p2 : Sys2Proof.Param) :
    Sys2Proof.Laws.EncodeShape.Statement (.add p0 p1 p2) := Sys2Proof.Laws.encodeShape_general _

theorem Sys2Proof.Laws.EncodeShape.mul (p0 p1 p2 : Sys2Proof.Param) :
    Sys2Proof.Laws.EncodeShape.Statement (.mul p0 p1 p2) := Sys2Proof.Laws.encodeShape_general _

theorem Sys2Proof.Laws.EncodeShape.input (p0 : Sys2Proof.Param) :
    Sys2Proof.Laws.EncodeShape.Statement (.input p0) := Sys2Proof.Laws.encodeShape_general _

theorem Sys2Proof.Laws.EncodeShape.output (p0 : Sys2Proof.Param) :
    Sys2Proof.Laws.EncodeShape.Statement (.output p0) := Sys2Proof.Laws.encodeShape_general _

theorem Sys2Proof.Laws.EncodeShape.jnz (p0 p1 : Sys2Proof.Param) :
    Sys2Proof.Laws.EncodeShape.Statement (.jnz p0 p1) := Sys2Proof.Laws.encodeShape_general _

theorem Sys2Proof.Laws.EncodeShape.jz (p0 p1 : Sys2Proof.Param) :
    Sys2Proof.Laws.EncodeShape.Statement (.jz p0 p1) := Sys2Proof.Laws.encodeShape_general _

theorem Sys2Proof.Laws.EncodeShape.lt (p0 p1 p2 : Sys2Proof.Param) :
    Sys2Proof.Laws.EncodeShape.Statement (.lt p0 p1 p2) := Sys2Proof.Laws.encodeShape_general _

theorem Sys2Proof.Laws.EncodeShape.eq (p0 p1 p2 : Sys2Proof.Param) :
    Sys2Proof.Laws.EncodeShape.Statement (.eq p0 p1 p2) := Sys2Proof.Laws.encodeShape_general _

theorem Sys2Proof.Laws.EncodeShape.arb (p0 : Sys2Proof.Param) :
    Sys2Proof.Laws.EncodeShape.Statement (.arb p0) := Sys2Proof.Laws.encodeShape_general _

theorem Sys2Proof.Laws.EncodeShape.hlt : Sys2Proof.Laws.EncodeShape.Statement .hlt := Sys2Proof.Laws.encodeShape_general _
end

