-- ==== Sys2Proof/Tests/Slice0.lean ====
section
/-! SUPPORT. The model's own tests. Expected values are the spec's: the tables of 30_encoding.md and the vectors of
95_test_vectors.md, named T, X or by section; the first step of a vector is the one run here. -/

namespace Sys2Proof.Tests

open Sys2Proof Sys2Proof.Machine

/-! ## Helpers -/

/-- The state a step gives; reset where it gives none (it always gives one). -/
def after : Host.Outcome State Fault Refusal → State
  | .next t => t
  | .fault _ => State.reset
  | .refused _ => State.reset

/-- A machine of capacity `cap` just loaded with an image. -/
def loaded (cap : Nat) (image : List Int) (input : List Answer) : State :=
  after (load ⟨cap, .fault⟩ image ⟨input, .readFailure, .accepting, false⟩)

/-- The state after the first step of an image. -/
def first (cap : Nat) (image : List Int) : State := after (step (loaded cap image []))

/-- The state after the first step of an image with input answers. -/
def firstIn (cap : Nat) (image : List Int) (input : List Answer) : State := after (step (loaded cap image input))

/-! ## WellFormed: its one check refuses an Immediate destination, and nothing else -/

theorem test_wf_add_immediate_destination :
    (Instr.add ⟨.immediate, 1⟩ ⟨.immediate, 1⟩ ⟨.immediate, 3⟩).wellFormed = false := by decide

theorem test_wf_mul_immediate_destination :
    (Instr.mul ⟨.position, 0⟩ ⟨.position, 0⟩ ⟨.immediate, 0⟩).wellFormed = false := by decide

theorem test_wf_in_immediate_destination : (Instr.input ⟨.immediate, 3⟩).wellFormed = false := by decide

theorem test_wf_lt_immediate_destination :
    (Instr.lt ⟨.immediate, 1⟩ ⟨.immediate, 2⟩ ⟨.immediate, 3⟩).wellFormed = false := by decide

theorem test_wf_eq_immediate_destination :
    (Instr.eq ⟨.immediate, 1⟩ ⟨.immediate, 2⟩ ⟨.immediate, 3⟩).wellFormed = false := by decide

theorem test_wf_others :
    (Instr.output ⟨.immediate, 3⟩).wellFormed = true ∧ (Instr.jnz ⟨.immediate, 3⟩ ⟨.immediate, 3⟩).wellFormed = true ∧
      (Instr.jz ⟨.immediate, 3⟩ ⟨.immediate, 3⟩).wellFormed = true ∧ (Instr.arb ⟨.immediate, 3⟩).wellFormed = true ∧
      (Instr.add ⟨.immediate, 1⟩ ⟨.immediate, 1⟩ ⟨.relative, 3⟩).wellFormed = true ∧ Instr.hlt.wellFormed = true := by
  decide

/-! ## Decode: one word of every operation written out from R61, R63, R66 -/

/-- `1101`: OP 01, digit 2 is 1, digit 3 is 1, digit 4 is 0 (95_test_vectors.md section 3). -/
theorem test_decode_add :
    decode [1101, 100, -1, 4, 0] = .ok (.add ⟨.immediate, 100⟩ ⟨.immediate, -1⟩ ⟨.position, 4⟩, [0]) := by rfl

/-- `22202`: every parameter Relative. -/
theorem test_decode_mul :
    decode [22202, 4, 3, 4] = .ok (.mul ⟨.relative, 4⟩ ⟨.relative, 3⟩ ⟨.relative, 4⟩, []) := by rfl

/-- `3`: an absent digit is 0, Position. -/
theorem test_decode_in : decode [3, 7] = .ok (.input ⟨.position, 7⟩, []) := by rfl

/-- `3004`: the digit above the last parameter's is ignored (T89). -/
theorem test_decode_out : decode [3004, 2, 99] = .ok (.output ⟨.position, 2⟩, [99]) := by rfl

theorem test_decode_jnz : decode [105, 0, 50] = .ok (.jnz ⟨.immediate, 0⟩ ⟨.position, 50⟩, []) := by rfl

theorem test_decode_jz : decode [2206, -2, 3] = .ok (.jz ⟨.relative, -2⟩ ⟨.relative, 3⟩, []) := by rfl

theorem test_decode_lt :
    decode [1107, 3, 5, 5] = .ok (.lt ⟨.immediate, 3⟩ ⟨.immediate, 5⟩ ⟨.position, 5⟩, []) := by rfl

theorem test_decode_eq :
    decode [1008, 100, 16, 101] = .ok (.eq ⟨.position, 100⟩ ⟨.immediate, 16⟩ ⟨.position, 101⟩, []) := by rfl

theorem test_decode_arb : decode [209, 1] = .ok (.arb ⟨.relative, 1⟩, []) := by rfl

/-- `99999` is Halt (T88), and nothing after it is a parameter. -/
theorem test_decode_hlt : decode [99999] = .ok (.hlt, []) ∧ decode [1199, 5] = .ok (.hlt, [5]) := ⟨rfl, rfl⟩

/-- Rejections by name: T99, T101, T103, T106, T31, T95, T110. -/
theorem test_decode_rejects :
    decode [98] = .error (.invalidOpcode 98) ∧ decode [-1] = .error (.invalidOpcode (-1)) ∧
      decode [-200] = .error (.invalidOpcode 0) ∧ decode [3401, 0, 0, 0] = .error (.invalidAddressingMode 4) ∧
      decode [103, 3] = .error (.invalidWriteDestination 1) ∧ decode [1101, 1] = .error (.missingParameter 1) ∧
      decode [301] = .error (.missingParameter 0) := ⟨rfl, rfl, rfl, rfl, rfl, rfl, rfl⟩

/-! ## Encode: the canonical word of R73 and the opcode table -/

theorem test_encode_add : encode (.add ⟨.relative, 5⟩ ⟨.immediate, 6⟩ ⟨.relative, 7⟩) = [21201, 5, 6, 7] := by decide

theorem test_encode_in_and_jz :
    encode (.input ⟨.relative, -1⟩) = [203, -1] ∧ encode (.jz ⟨.position, 101⟩ ⟨.immediate, 0⟩) = [1006, 101, 0] := by
  decide

theorem test_encode_hlt : encode .hlt = [99] := by decide

/-! ## Words numbered as the opcode table numbers them, placed where the first step after reset fetches -/

/-- The canonical words of the table's rows, operand words of zeros. -/
theorem test_table_words :
    decodeTableWord 64 1 = some (.add ⟨.position, 0⟩ ⟨.position, 0⟩ ⟨.position, 0⟩) ∧
      decodeTableWord 64 22202 = some (.mul ⟨.relative, 0⟩ ⟨.relative, 0⟩ ⟨.relative, 0⟩) ∧
      decodeTableWord 64 203 = some (.input ⟨.relative, 0⟩) ∧ decodeTableWord 64 104 = some (.output ⟨.immediate, 0⟩) ∧
      decodeTableWord 64 1105 = some (.jnz ⟨.immediate, 0⟩ ⟨.immediate, 0⟩) ∧
      decodeTableWord 64 6 = some (.jz ⟨.position, 0⟩ ⟨.position, 0⟩) ∧
      decodeTableWord 256 7 = some (.lt ⟨.position, 0⟩ ⟨.position, 0⟩ ⟨.position, 0⟩) ∧
      decodeTableWord 256 8 = some (.eq ⟨.position, 0⟩ ⟨.position, 0⟩ ⟨.position, 0⟩) ∧
      decodeTableWord 128 (109 + 5 * 2 ^ 64) = some (.arb ⟨.immediate, 5⟩) ∧ decodeTableWord 8 99 = some .hlt ∧
      decodeTableWord 64 10001 = none := by decide

/-- `ADD [0], [0], [0]` as the first instruction after reset: cell 0 held 1 and holds 2 (T2). -/
theorem test_fetch_word_add : (after (step (State.reset.withFetchWord 64 1))).mem.read 0 = 2 := by decide

/-- Halt as the first instruction after reset (T85). -/
theorem test_fetch_word_hlt :
    (after (step (State.reset.withFetchWord 64 99))).status = .halted ∧
      (after (step (State.reset.withFetchWord 64 99))).ip = 1 := by decide

/-! ## One step of each instruction -/

/-- T1. -/
theorem test_add_position : (first 8 [1, 5, 6, 7, 99, 20, 22, 0]).mem.read 7 = 42 := by decide

/-- T7: `WMAX + 1`. -/
theorem test_add_overflow :
    (first 6 [1101, 9223372036854775807, 1, 5, 99, 0]).fcode = .arithmeticOverflow ∧
      (first 6 [1101, 9223372036854775807, 1, 5, 99, 0]).mem.read 5 = 0 := by decide

/-- T16. -/
theorem test_mul_sign : (first 6 [1102, -3, 7, 5, 99, 0]).mem.read 5 = -21 := by decide

/-- T21: `WMIN * -1`. -/
theorem test_mul_overflow :
    (first 6 [1102, -9223372036854775808, -1, 5, 99, 0]).fcode = .arithmeticOverflow := by decide

/-- T28: the value overwrites the opcode word of its own IN, which has been decoded. -/
theorem test_in_stores :
    (firstIn 5 [3, 0, 4, 0, 99] [.value 77]).mem.read 0 = 77 ∧ (firstIn 5 [3, 0, 4, 0, 99] [.value 77]).input = [] := by
  decide

/-- T35: the destination is out of range, one item is consumed. -/
theorem test_in_out_of_range :
    (firstIn 4 [3, 9, 99, 0] [.value 42, .value 43]).fval = 9 ∧
      (firstIn 4 [3, 9, 99, 0] [.value 42, .value 43]).input = [.value 43] := by decide

/-- T37. -/
theorem test_out_position : (first 4 [4, 3, 99, -5]).output = [-5] := by decide

/-- T42. -/
theorem test_out_out_of_range :
    (first 3 [4, 50, 99]).fcode = .memoryOutOfBounds ∧ (first 3 [4, 50, 99]).fval = 50 ∧
      (first 3 [4, 50, 99]).output = [] := by decide

/-- T44, T45. -/
theorem test_jnz :
    (first 7 [1105, 1, 4, 99, 104, 7, 99]).ip = 4 ∧ (first 7 [1105, 0, 4, 99, 104, 7, 99]).ip = 3 := by decide

/-- T57: an untaken jump still reads its target operand. -/
theorem test_jnz_reads_target : (first 4 [105, 0, 50, 99]).fval = 50 := by decide

/-- T47, T48. -/
theorem test_jz :
    (first 7 [1106, 0, 4, 99, 104, 7, 99]).ip = 4 ∧ (first 7 [1106, 5, 4, 99, 104, 7, 99]).ip = 3 := by decide

/-- T64, T65: the comparison is signed and exact at the extremes. -/
theorem test_lt_extremes :
    (first 6 [1107, -9223372036854775808, 9223372036854775807, 5, 99, -1]).mem.read 5 = 1 ∧
      (first 6 [1107, 9223372036854775807, -9223372036854775808, 5, 99, -1]).mem.read 5 = 0 := by decide

/-- T63: equal is not less. -/
theorem test_lt_strict : (first 6 [1107, 5, 5, 5, 99, -1]).mem.read 5 = 0 := by decide

/-- T68, T69. -/
theorem test_eq :
    (first 6 [1108, 8, 8, 5, 99, -1]).mem.read 5 = 1 ∧ (first 6 [1108, 8, -8, 5, 99, -1]).mem.read 5 = 0 := by decide

/-- T73: an Immediate destination faults at decode. -/
theorem test_eq_immediate_destination : (first 5 [11108, 1, 2, 3, 99]).fcode = .invalidWriteDestination := by decide

/-- T77. -/
theorem test_arb_position : (first 4 [9, 3, 99, 12]).rbase = 12 := by decide

/-- The second step of T79: a Relative operand is read with the old base, `1 + 209`. -/
theorem test_arb_relative : (after (step { loaded 5 [109, 1, 209, 1, 99] [] with ip := 2, rbase := 1 })).rbase = 210 := by
  decide

/-- T85. -/
theorem test_hlt : (first 1 [99]).status = .halted ∧ (first 1 [99]).hcause = .haltInstr := by decide

/-! ## One step of each fault of the decode phases, and the boundary -/

/-- The second step of T83: `WMAX + WMAX` is reported exactly, in 65 bits. -/
theorem test_relative_address_exact :
    (after (step { loaded 5 [109, 9223372036854775807, 204, 9223372036854775807, 99] [] with
      ip := 2, rbase := 9223372036854775807 })).fval.toInt = 18446744073709551614 := by decide

/-- T101, T110, T111. -/
theorem test_decode_faults :
    (first 1 [-1]).fval.toInt = -1 ∧ (first 1 [301]).fcode = .memoryOutOfBounds ∧ (first 1 [301]).fval = 1 ∧
      (first 3 [3001, 0, 0]).fcode = .invalidAddressingMode ∧ (first 3 [3001, 0, 0]).fval = 3 ∧
      (first 3 [3001, 0, 0]).ip = 1 := by decide

/-- The last step of T54 and of T55. -/
theorem test_boundary_and_negative_ip :
    (after (step { loaded 4 [1105, 1, 1000, 99] [] with ip := 1000 })).hcause = .boundary ∧
      (after (step { loaded 4 [1105, 1, -1, 99] [] with ip := -1 })).fpos = -1 := by decide

/-! ## Witnesses: for every statement with hypotheses, a state and operands that meet all of them together, each clause at a
boundary of its range -/

theorem witness_DecodeInvertsEncode :
    (Instr.eq ⟨.immediate, 100⟩ ⟨.relative, -1⟩ ⟨.relative, 4⟩).wellFormed = true := by decide

theorem witness_DecodedInstructionIsItsWords :
    decode [9901101, 1, 1, 0, 7] = .ok (.add ⟨.immediate, 1⟩ ⟨.immediate, 1⟩ ⟨.position, 0⟩, [7]) := by rfl

theorem witness_DigitsAboveTheParametersAreIgnored :
    0 ≤ (1101 : Word).toInt ∧ 0 ≤ (9901101 : Word).toInt ∧ Op.ofValue (opcodeValue 1101) = some .add ∧
      (9901101 : Word).toNat % 10 ^ (2 + Op.add.count) = (1101 : Word).toNat % 10 ^ (2 + Op.add.count) := by decide

theorem witness_MemoryAccessIsBoundsChecked :
    7 < (loaded 8 [] []).cfg.cap ∧ ((-1 : Int) < 0 ∨ ((loaded 8 [] []).cfg.cap : Int) ≤ -1) ∧
      ((8 : Int) < 0 ∨ ((loaded 8 [] []).cfg.cap : Int) ≤ 8) := by decide

theorem witness_CanonicalMemoriesThatReadAlikeAreEqual :
    Memory.wf [(3, 5), (6, -1)] = true ∧ (Memory.write [(3, 5)] 6 (-1)).wf = true ∧
      ∀ a, Memory.read [(3, 5), (6, -1)] a = (Memory.write [(3, 5)] 6 (-1)).read a :=
  ⟨by decide, by decide, fun _ => rfl⟩

/-- Position: 0, CAP-1, -1 and CAP; Relative with a base of 3: the same addresses. -/
theorem witness_OperandValueByMode :
    ((0 : Word).toInt = (0 : Nat) ∧ (7 : Word).toInt = (7 : Nat) ∧ 7 < (loaded 8 [] []).cfg.cap) ∧
      ((-1 : Word).toInt < 0 ∧ ((loaded 8 [] []).cfg.cap : Int) ≤ (8 : Word).toInt) ∧
      ((3 : Word).toInt + (-3 : Word).toInt = (0 : Nat) ∧ (3 : Word).toInt + (4 : Word).toInt = (7 : Nat)) ∧
      ((3 : Word).toInt + (-4 : Word).toInt < 0 ∧ ((loaded 8 [] []).cfg.cap : Int) ≤ (3 : Word).toInt + (5 : Word).toInt) := by
  decide

theorem witness_DestinationIsWrittenAtItsAddress :
    (Mode.position = .position ∧ (7 : Int) = (7 : Word).toInt) ∧ 7 < (loaded 8 [] []).cfg.cap ∧
      (Mode.relative = .relative ∧ (8 : Int) = (3 : Word).toInt + (5 : Word).toInt) ∧
      ((8 : Int) < 0 ∨ ((loaded 8 [] []).cfg.cap : Int) ≤ 8) := by decide

/-- Outside: the two extremes of R91, `WMIN + WMIN` and `WMAX + WMAX`, and the first addresses outside; inside: 0 and 7. -/
theorem witness_RelativeAddressNeverWraps :
    (-9223372036854775808 : Word).toInt + (-9223372036854775808 : Word).toInt < 0 ∧
      ((loaded 8 [] []).cfg.cap : Int) ≤ (9223372036854775807 : Word).toInt + (9223372036854775807 : Word).toInt ∧
      (3 : Word).toInt + (-4 : Word).toInt < 0 ∧ ((loaded 8 [] []).cfg.cap : Int) ≤ (3 : Word).toInt + (5 : Word).toInt ∧
      (3 : Word).toInt + (-3 : Word).toInt = (0 : Nat) ∧ (3 : Word).toInt + (4 : Word).toInt = (7 : Nat) ∧
      7 < (loaded 8 [] []).cfg.cap := by decide

/-- An IN that has been waiting at address 4 and is now answered. -/
def waiting (input : List Answer) : State :=
  { loaded 8 [104, 1, 99, 0, 3, 7] input with a0 := 4, ip := 6, latch := some (.input ⟨.position, 7⟩) }

/-- T99, a fault of phase D; a waiting IN that is answered ReadFailure; and the last step of T55, whose `ip` is -1. -/
theorem witness_FaultPositionIsWhereTheStepBegan :
    ((loaded 1 [98] []).status = .running ∧ step (loaded 1 [98] []) = .next (first 1 [98]) ∧
      (first 1 [98]).status = .faulted ∧ (loaded 1 [98] []).latch = none) ∧
    ((waiting [.readFailure]).status = .running ∧
      step (waiting [.readFailure]) = .next (after (step (waiting [.readFailure]))) ∧
      (after (step (waiting [.readFailure]))).status = .faulted ∧
      (waiting [.readFailure]).latch = some (.input ⟨.position, 7⟩)) ∧
    (({ loaded 4 [1105, 1, -1, 99] [] with ip := -1 } : State).status = .running ∧
      step { loaded 4 [1105, 1, -1, 99] [] with ip := -1 } =
        .next (after (step { loaded 4 [1105, 1, -1, 99] [] with ip := -1 })) ∧
      (after (step { loaded 4 [1105, 1, -1, 99] [] with ip := -1 })).status = .faulted ∧
      ({ loaded 4 [1105, 1, -1, 99] [] with ip := -1 } : State).latch = none ∧
      ({ loaded 4 [1105, 1, -1, 99] [] with ip := -1 } : State).ip.toInt < 0) :=
  ⟨⟨rfl, rfl, rfl, rfl⟩, ⟨rfl, rfl, rfl, rfl⟩, rfl, rfl, rfl, rfl, by decide⟩

/-- T35: a fault of phase X. -/
theorem witness_FaultingStepChangesNoMemory :
    (loaded 4 [3, 9, 99, 0] [.value 42]).status = .running ∧
      step (loaded 4 [3, 9, 99, 0] [.value 42]) = .next (firstIn 4 [3, 9, 99, 0] [.value 42]) ∧
      (firstIn 4 [3, 9, 99, 0] [.value 42]).status = .faulted := ⟨rfl, rfl, rfl⟩

/-- One state for each clause: `ip = -1`; T99; T95; T105; T10; T12. -/
theorem witness_FaultLeavesIpWhereTheStepHadGot :
    (Ready { loaded 1 [99] [] with ip := -1 } ∧ ({ loaded 1 [99] [] with ip := -1 } : State).ip.toInt < 0 ∧
      (after (step { loaded 1 [99] [] with ip := -1 })).status = .faulted) ∧
    (Ready (loaded 1 [98] []) ∧ (loaded 1 [98] []).ip.toInt = (0 : Nat) ∧ 0 < (loaded 1 [98] []).cfg.cap ∧
      (first 1 [98]).status = .faulted ∧ decode (fetchWords (loaded 1 [98] []) 0) = .error (.invalidOpcode 98)) ∧
    ((first 2 [1101, 1]).status = .faulted ∧
      decode (fetchWords (loaded 2 [1101, 1] []) 0) = .error (.missingParameter 1)) ∧
    ((first 5 [301, 1, 1, 0, 99]).status = .faulted ∧
      decode (fetchWords (loaded 5 [301, 1, 1, 0, 99] []) 0) = .error (.invalidAddressingMode 3)) ∧
    ((first 5 [11101, 1, 1, 3, 99]).status = .faulted ∧
      Op.ofValue (opcodeValue ((loaded 5 [11101, 1, 1, 3, 99] []).mem.read 0)) = some .add ∧
      decode (fetchWords (loaded 5 [11101, 1, 1, 3, 99] []) 0) = .error (.invalidWriteDestination 3)) ∧
    ((first 5 [1101, 1, 1, -1, 99]).status = .faulted ∧
      decode (fetchWords (loaded 5 [1101, 1, 1, -1, 99] []) 0) =
        .ok (.add ⟨.immediate, 1⟩ ⟨.immediate, 1⟩ ⟨.position, -1⟩, [])) :=
  ⟨⟨⟨rfl, rfl⟩, by decide, rfl⟩, ⟨⟨rfl, rfl⟩, by decide, by decide, rfl, rfl⟩, ⟨rfl, rfl⟩, ⟨rfl, rfl⟩, ⟨rfl, by decide, rfl⟩,
    rfl, rfl⟩

/-- A waiting IN; and the last instruction of a full memory. -/
theorem witness_StepRunsTheDecodedInstruction :
    ((waiting []).status = .running ∧ (waiting []).latch = some (.input ⟨.position, 7⟩)) ∧
    (Ready { loaded 3 [104, 7, 99] [] with ip := 2 } ∧
      ({ loaded 3 [104, 7, 99] [] with ip := 2 } : State).ip.toInt = (2 : Nat) ∧ 2 < (loaded 3 [104, 7, 99] []).cfg.cap ∧
      decode (fetchWords { loaded 3 [104, 7, 99] [] with ip := 2 } 2) = .ok (.hlt, [])) :=
  ⟨⟨rfl, rfl⟩, ⟨rfl, rfl⟩, by decide, by decide, rfl⟩

/-- T91: the instruction ends at `CAP`. -/
theorem witness_StepRunsTheEncodedInstruction :
    Ready (loaded 4 [1101, 1, 1, 0] []) ∧ (loaded 4 [1101, 1, 1, 0] []).ip.toInt = (0 : Nat) ∧
      (Instr.add ⟨.immediate, 1⟩ ⟨.immediate, 1⟩ ⟨.position, 0⟩).wellFormed = true ∧
      0 + (1 + (Instr.add ⟨.immediate, 1⟩ ⟨.immediate, 1⟩ ⟨.position, 0⟩).count) ≤ (loaded 4 [1101, 1, 1, 0] []).cfg.cap ∧
      ∀ k, k < 1 + (Instr.add ⟨.immediate, 1⟩ ⟨.immediate, 1⟩ ⟨.position, 0⟩).count →
        (encode (.add ⟨.immediate, 1⟩ ⟨.immediate, 1⟩ ⟨.position, 0⟩))[k]? =
          some ((loaded 4 [1101, 1, 1, 0] []).mem.read (0 + k)) :=
  ⟨⟨rfl, rfl⟩, by decide, by decide, by decide, by decide⟩

theorem witness_BoundaryEndsTheRun :
    Ready { loaded 4 [1101, 1, 1, 0] [] with ip := 4 } ∧
      ((loaded 4 [1101, 1, 1, 0] []).cfg.cap : Int) ≤ ({ loaded 4 [1101, 1, 1, 0] [] with ip := 4 } : State).ip.toInt :=
  ⟨⟨rfl, rfl⟩, by decide⟩

theorem witness_NegativeIpFaultsAtTheFetch :
    Ready { loaded 4 [99] [] with ip := -1 } ∧ ({ loaded 4 [99] [] with ip := -1 } : State).ip.toInt < 0 :=
  ⟨⟨rfl, rfl⟩, by decide⟩

/-- A negative word, T101, and an opcode that is not in the map, T98, in the last cell. -/
theorem witness_IllegalOpcodeFaults :
    (Ready (loaded 1 [-1] []) ∧ (loaded 1 [-1] []).ip.toInt = (0 : Nat) ∧ 0 < (loaded 1 [-1] []).cfg.cap ∧
      ((loaded 1 [-1] []).mem.read 0).toInt < 0) ∧
    (Ready (loaded 1 [10] []) ∧ (loaded 1 [10] []).ip.toInt = (0 : Nat) ∧ 0 < (loaded 1 [10] []).cfg.cap ∧
      ((loaded 1 [10] []).mem.read 0).toInt % 100 ∉ ([1, 2, 3, 4, 5, 6, 7, 8, 9, 99] : List Int)) :=
  ⟨⟨⟨rfl, rfl⟩, by decide, by decide, by decide⟩, ⟨rfl, rfl⟩, by decide, by decide, by decide⟩

/-- T107 in a memory that ends with the parameter word: parameter 2 of ADD. -/
theorem witness_IllegalModeDigitFaults :
    Ready (loaded 4 [30001, 0, 0, 0] []) ∧ (loaded 4 [30001, 0, 0, 0] []).ip.toInt = (0 : Nat) ∧
      0 ≤ ((loaded 4 [30001, 0, 0, 0] []).mem.read 0).toInt ∧
      ((loaded 4 [30001, 0, 0, 0] []).mem.read 0).toInt % 100 = Op.add.code ∧ 2 < Op.add.count ∧
      0 + 1 + 2 < (loaded 4 [30001, 0, 0, 0] []).cfg.cap ∧
      (∀ j, j < 2 → ((loaded 4 [30001, 0, 0, 0] []).mem.read 0).toNat / 10 ^ (2 + j) % 10 ≤ 2) ∧
      2 < ((loaded 4 [30001, 0, 0, 0] []).mem.read 0).toNat / 10 ^ (2 + 2) % 10 :=
  ⟨⟨rfl, rfl⟩, by decide, by decide, by decide, by decide, by decide, by decide, by decide⟩

/-- T112: the third parameter word is at `CAP`. -/
theorem witness_MissingParameterWordFaults :
    Ready (loaded 3 [30001, 0, 0] []) ∧ (loaded 3 [30001, 0, 0] []).cfg.wf = true ∧
      (loaded 3 [30001, 0, 0] []).ip.toInt = (0 : Nat) ∧ 0 ≤ ((loaded 3 [30001, 0, 0] []).mem.read 0).toInt ∧
      ((loaded 3 [30001, 0, 0] []).mem.read 0).toInt % 100 = Op.add.code ∧ 2 < Op.add.count ∧
      0 + 1 + 2 = (loaded 3 [30001, 0, 0] []).cfg.cap ∧
      (∀ j, j < 2 → ((loaded 3 [30001, 0, 0] []).mem.read 0).toNat / 10 ^ (2 + j) % 10 ≤ 2) :=
  ⟨⟨rfl, rfl⟩, by decide, by decide, by decide, by decide, by decide, by decide, by decide⟩

/-- T72 without its last word, for LT; T31 cut to two words, for IN. -/
theorem witness_ImmediateDestinationFaultsAtDecode :
    (Ready (loaded 4 [11107, 1, 2, 3] []) ∧ (loaded 4 [11107, 1, 2, 3] []).ip.toInt = (0 : Nat) ∧
      0 ≤ ((loaded 4 [11107, 1, 2, 3] []).mem.read 0).toInt ∧
      ((loaded 4 [11107, 1, 2, 3] []).mem.read 0).toInt % 100 = Op.lt.code ∧
      0 + Op.lt.count < (loaded 4 [11107, 1, 2, 3] []).cfg.cap ∧
      ((Op.lt = .add ∨ Op.lt = .mul ∨ Op.lt = .lt ∨ Op.lt = .eq) ∧ 2 = 2 ∨ Op.lt = .input ∧ 2 = 0) ∧
      (∀ j, j < Op.lt.count → ((loaded 4 [11107, 1, 2, 3] []).mem.read 0).toNat / 10 ^ (2 + j) % 10 ≤ 2) ∧
      ((loaded 4 [11107, 1, 2, 3] []).mem.read 0).toNat / 10 ^ (2 + 2) % 10 = 1) ∧
    (Ready (loaded 2 [103, 3] []) ∧ (loaded 2 [103, 3] []).ip.toInt = (0 : Nat) ∧
      0 ≤ ((loaded 2 [103, 3] []).mem.read 0).toInt ∧ ((loaded 2 [103, 3] []).mem.read 0).toInt % 100 = Op.input.code ∧
      0 + Op.input.count < (loaded 2 [103, 3] []).cfg.cap ∧
      ((Op.input = .add ∨ Op.input = .mul ∨ Op.input = .lt ∨ Op.input = .eq) ∧ 0 = 2 ∨ Op.input = .input ∧ 0 = 0) ∧
      (∀ j, j < Op.input.count → ((loaded 2 [103, 3] []).mem.read 0).toNat / 10 ^ (2 + j) % 10 ≤ 2) ∧
      ((loaded 2 [103, 3] []).mem.read 0).toNat / 10 ^ (2 + 0) % 10 = 1) :=
  ⟨⟨⟨rfl, rfl⟩, by decide, by decide, by decide, by decide, by decide, by decide, by decide⟩,
    ⟨rfl, rfl⟩, by decide, by decide, by decide, by decide, by decide, by decide, by decide⟩

/-- The state that the execute phase's witnesses use: cells 5 and 6 hold 20 and -3, `rbase` is 2. -/
def ready8 : State := { loaded 8 [0, 0, 0, 0, 0, 20, -3, 0] [] with rbase := 2 }

/-- Position, Relative and a destination in the last cell. -/
theorem witness_AddStoresTheExactSum :
    val ready8 ⟨.position, 5⟩ = .ok 20 ∧ val ready8 ⟨.relative, 4⟩ = .ok (-3) ∧
      effectiveAddress ready8 ⟨.position, 7⟩ = some ((7 : Nat) : Int) ∧ 7 < ready8.cfg.cap ∧
      fits ((20 : Word).toInt + (-3 : Word).toInt) = true := ⟨rfl, rfl, rfl, by decide, by decide⟩

/-- `2^32 * -2^31 = WMIN`, the least result that fits (T24), to a Relative destination. -/
theorem witness_MulStoresTheExactProduct :
    val ready8 ⟨.immediate, 4294967296⟩ = .ok 4294967296 ∧ val ready8 ⟨.immediate, -2147483648⟩ = .ok (-2147483648) ∧
      effectiveAddress ready8 ⟨.relative, -2⟩ = some ((0 : Nat) : Int) ∧ 0 < ready8.cfg.cap ∧
      fits ((4294967296 : Word).toInt * (-2147483648 : Word).toInt) = true := ⟨rfl, rfl, rfl, by decide, by decide⟩

theorem witness_LtStoresTheComparison :
    val ready8 ⟨.position, 5⟩ = .ok 20 ∧ val ready8 ⟨.relative, 4⟩ = .ok (-3) ∧
      effectiveAddress ready8 ⟨.relative, 5⟩ = some ((7 : Nat) : Int) ∧ 7 < ready8.cfg.cap :=
  ⟨rfl, rfl, rfl, by decide⟩

theorem witness_EqStoresTheComparison :
    val ready8 ⟨.position, 5⟩ = .ok 20 ∧ val ready8 ⟨.immediate, 20⟩ = .ok 20 ∧
      effectiveAddress ready8 ⟨.position, 0⟩ = some ((0 : Nat) : Int) ∧ 0 < ready8.cfg.cap :=
  ⟨rfl, rfl, rfl, by decide⟩

/-- T4, whose destination is one of its own words, and T15. -/
theorem witness_ArithmeticUsesTheStateTheStepBeganIn :
    (Ready (loaded 5 [1101, 1, 1, 1, 99] []) ∧ (loaded 5 [1101, 1, 1, 1, 99] []).ip.toInt = (0 : Nat) ∧
      decode (fetchWords (loaded 5 [1101, 1, 1, 1, 99] []) 0) =
        .ok (.add ⟨.immediate, 1⟩ ⟨.immediate, 1⟩ ⟨.position, 1⟩, []) ∧
      val (loaded 5 [1101, 1, 1, 1, 99] []) ⟨.immediate, 1⟩ = .ok 1 ∧
      effectiveAddress (loaded 5 [1101, 1, 1, 1, 99] []) ⟨.position, 1⟩ = some ((1 : Nat) : Int) ∧
      1 < (loaded 5 [1101, 1, 1, 1, 99] []).cfg.cap ∧ fits ((1 : Word).toInt + (1 : Word).toInt) = true) ∧
    (Ready (loaded 5 [1002, 4, 3, 4, 33] []) ∧ (loaded 5 [1002, 4, 3, 4, 33] []).ip.toInt = (0 : Nat) ∧
      decode (fetchWords (loaded 5 [1002, 4, 3, 4, 33] []) 0) =
        .ok (.mul ⟨.position, 4⟩ ⟨.immediate, 3⟩ ⟨.position, 4⟩, []) ∧
      val (loaded 5 [1002, 4, 3, 4, 33] []) ⟨.position, 4⟩ = .ok 33 ∧
      val (loaded 5 [1002, 4, 3, 4, 33] []) ⟨.immediate, 3⟩ = .ok 3 ∧
      effectiveAddress (loaded 5 [1002, 4, 3, 4, 33] []) ⟨.position, 4⟩ = some ((4 : Nat) : Int) ∧
      4 < (loaded 5 [1002, 4, 3, 4, 33] []).cfg.cap ∧ fits ((33 : Word).toInt * (3 : Word).toInt) = true) :=
  ⟨⟨⟨rfl, rfl⟩, by decide, rfl, rfl, rfl, by decide, by decide⟩,
    ⟨rfl, rfl⟩, by decide, rfl, rfl, rfl, rfl, by decide, by decide⟩

/-- `WMAX + 1`, `WMIN * -1` (T7, T21), and `rbase = 2` plus `WMAX - 1`: each the first result that does not fit. -/
theorem witness_OverflowIsAFault :
    ready8.cfg.ovf = .fault ∧
    (val ready8 ⟨.immediate, 9223372036854775807⟩ = .ok 9223372036854775807 ∧ val ready8 ⟨.immediate, 1⟩ = .ok 1 ∧
      (⟨.position, 99⟩ : Param).canBeWritten = true ∧
      ¬ fits ((9223372036854775807 : Word).toInt + (1 : Word).toInt) = true) ∧
    (val ready8 ⟨.immediate, -9223372036854775808⟩ = .ok (-9223372036854775808) ∧ val ready8 ⟨.immediate, -1⟩ = .ok (-1) ∧
      ¬ fits ((-9223372036854775808 : Word).toInt * (-1 : Word).toInt) = true) ∧
    (val ready8 ⟨.immediate, 9223372036854775806⟩ = .ok 9223372036854775806 ∧
      ¬ fits (ready8.rbase.toInt + (9223372036854775806 : Word).toInt) = true) :=
  ⟨rfl, ⟨rfl, rfl, rfl, by decide⟩, ⟨rfl, rfl, by decide⟩, rfl, by decide⟩

/-- The same machine as an instance with `OVF = wrap`. -/
theorem witness_WrapStoresTheResultModuloTwoPow64 :
    ({ ready8 with cfg := ⟨8, .wrap⟩ } : State).cfg.ovf = .wrap ∧
      val { ready8 with cfg := ⟨8, .wrap⟩ } ⟨.immediate, 9223372036854775807⟩ = .ok 9223372036854775807 ∧
      val { ready8 with cfg := ⟨8, .wrap⟩ } ⟨.immediate, 1⟩ = .ok 1 ∧
      effectiveAddress { ready8 with cfg := ⟨8, .wrap⟩ } ⟨.position, 7⟩ = some ((7 : Nat) : Int) ∧
      7 < ({ ready8 with cfg := ⟨8, .wrap⟩ } : State).cfg.cap := ⟨rfl, rfl, rfl, rfl, by decide⟩

/-- One operand for each clause: an Immediate destination; the first operand at `CAP`; the second at -1; the destination at
`CAP`. -/
theorem witness_FormatRRWFaultsInOrder :
    (⟨.immediate, 3⟩ : Param).mode = .immediate ∧ (⟨.position, 8⟩ : Param).mode ≠ .immediate ∧
      (effectiveAddress ready8 ⟨.position, 8⟩ = some 8 ∧ ((8 : Int) < 0 ∨ (ready8.cfg.cap : Int) ≤ 8)) ∧
      (val ready8 ⟨.position, 5⟩ = .ok 20 ∧ effectiveAddress ready8 ⟨.relative, -3⟩ = some (-1) ∧
        ((-1 : Int) < 0 ∨ (ready8.cfg.cap : Int) ≤ -1)) ∧
      (val ready8 ⟨.position, 6⟩ = .ok (-3) ∧ fits ((20 : Word).toInt + (-3 : Word).toInt) = true ∧
        fits ((20 : Word).toInt * (-3 : Word).toInt) = true) :=
  ⟨rfl, by decide, ⟨rfl, by decide⟩, ⟨rfl, rfl, by decide⟩, rfl, by decide, by decide⟩

theorem witness_InStoresTheAnswer :
    (loaded 8 [3, 7] [.value (-9223372036854775808), .value 1]).input = .value (-9223372036854775808) :: [.value 1] ∧
      effectiveAddress (loaded 8 [3, 7] [.value (-9223372036854775808), .value 1]) ⟨.position, 7⟩ =
        some ((7 : Nat) : Int) ∧ 7 < (loaded 8 [3, 7] [.value (-9223372036854775808), .value 1]).cfg.cap :=
  ⟨rfl, rfl, by decide⟩

/-- T31 to T35, one for each clause. -/
theorem witness_InFaults :
    (⟨.immediate, 3⟩ : Param).mode = .immediate ∧ (⟨.position, 8⟩ : Param).mode ≠ .immediate ∧
      (loaded 8 [] [.readFailure]).input = .readFailure :: [] ∧
      (loaded 8 [] [.parseFailure, .value 5]).input = .parseFailure :: [.value 5] ∧
      ((loaded 8 [] []).input = [] ∧ (loaded 8 [] []).inputEnd = .readFailure) ∧
      ((loaded 8 [] [.value 42, .value 43]).input = .value 42 :: [.value 43] ∧
        effectiveAddress (loaded 8 [] [.value 42, .value 43]) ⟨.position, 8⟩ = some 8 ∧
        ((8 : Int) < 0 ∨ ((loaded 8 [] [.value 42, .value 43]).cfg.cap : Int) ≤ 8)) :=
  ⟨rfl, by decide, rfl, rfl, ⟨rfl, rfl⟩, rfl, rfl, by decide⟩

theorem witness_InWaitsForItsAnswer :
    ({ ready8 with inputEnd := .silent } : State).status = .running ∧ (⟨.relative, 5⟩ : Param).mode ≠ .immediate ∧
      ({ ready8 with inputEnd := .silent } : State).input = [] ∧
      ({ ready8 with inputEnd := .silent } : State).inputEnd = .silent ∧
      effectiveAddress { ready8 with inputEnd := .silent } ⟨.relative, 5⟩ = some ((7 : Nat) : Int) ∧
      7 < ({ ready8 with inputEnd := .silent } : State).cfg.cap := ⟨rfl, by decide, rfl, rfl, rfl, by decide⟩

theorem witness_InputIntegerIsNeverTruncated :
    (WMIN ≤ WMIN ∧ WMIN ≤ WMAX) ∧ (WMIN ≤ WMAX ∧ WMAX ≤ WMAX) ∧ (WMIN - 1 < WMIN ∨ WMAX < WMIN - 1) ∧
      (WMAX + 1 < WMIN ∨ WMAX < WMAX + 1) := by decide

theorem witness_OutEmitsItsOperand : val ready8 ⟨.relative, 4⟩ = .ok (-3) ∧ ready8.sink = .accepting := ⟨rfl, rfl⟩

theorem witness_OutWaitsForItsSink :
    ({ ready8 with sink := .stalled } : State).status = .running ∧
      val { ready8 with sink := .stalled } ⟨.position, 5⟩ = .ok 20 ∧
      ({ ready8 with sink := .stalled } : State).sink = .stalled := ⟨rfl, rfl, rfl⟩

/-- A condition that holds and one that does not; the target -1 is an ordinary word. -/
theorem witness_JnzJumpsOnNonzero :
    val ready8 ⟨.relative, 4⟩ = .ok (-3) ∧ val ready8 ⟨.position, 0⟩ = .ok 0 ∧ val ready8 ⟨.immediate, -1⟩ = .ok (-1) :=
  ⟨rfl, rfl, rfl⟩

theorem witness_JzJumpsOnZero :
    val ready8 ⟨.position, 7⟩ = .ok 0 ∧ val ready8 ⟨.position, 5⟩ = .ok 20 ∧ val ready8 ⟨.immediate, 8⟩ = .ok 8 :=
  ⟨rfl, rfl, rfl⟩

theorem witness_ReadingInstructionsFaultInOrder :
    (effectiveAddress ready8 ⟨.position, 8⟩ = some 8 ∧ ((8 : Int) < 0 ∨ (ready8.cfg.cap : Int) ≤ 8)) ∧
      (val ready8 ⟨.position, 0⟩ = .ok 0 ∧ effectiveAddress ready8 ⟨.relative, -3⟩ = some (-1) ∧
        ((-1 : Int) < 0 ∨ (ready8.cfg.cap : Int) ≤ -1)) := ⟨⟨rfl, by decide⟩, rfl, rfl, by decide⟩

/-- The greatest sum that fits: `2 + (WMAX - 2)`. -/
theorem witness_ArbAddsToTheRelativeBase :
    val ready8 ⟨.immediate, 9223372036854775805⟩ = .ok 9223372036854775805 ∧
      fits (ready8.rbase.toInt + (9223372036854775805 : Word).toInt) = true := ⟨rfl, by decide⟩

/-- The operand is cell `2 + 4`, holding -3. -/
theorem witness_ArbReadsItsOperandWithTheOldBase :
    ready8.rbase.toInt + (4 : Word).toInt = (6 : Nat) ∧ 6 < ready8.cfg.cap ∧
      fits (ready8.rbase.toInt + (ready8.mem.read 6).toInt) = true := by decide

theorem witness_EndedMachineNeverMoves :
    (first 1 [99]).status ≠ .running ∧ (first 1 [98]).status ≠ .running := by decide

/-- T85 and the end of T91. -/
theorem witness_HaltedOnlyByHaltOrBoundary :
    ((loaded 1 [99] []).status = .running ∧ step (loaded 1 [99] []) = .next (first 1 [99]) ∧
      (first 1 [99]).status = .halted) ∧
    (({ loaded 4 [1101, 1, 1, 0] [] with ip := 4 } : State).status = .running ∧
      step { loaded 4 [1101, 1, 1, 0] [] with ip := 4 } =
        .next (after (step { loaded 4 [1101, 1, 1, 0] [] with ip := 4 })) ∧
      (after (step { loaded 4 [1101, 1, 1, 0] [] with ip := 4 })).status = .halted) :=
  ⟨⟨rfl, rfl, rfl⟩, rfl, rfl, rfl⟩

/-- T75. -/
theorem witness_OnlyArbChangesTheRelativeBase :
    step (loaded 3 [109, 7, 99] []) = .next (first 3 [109, 7, 99]) ∧
      (first 3 [109, 7, 99]).rbase ≠ (loaded 3 [109, 7, 99] []).rbase := ⟨rfl, by decide⟩

/-- T91: cell 0 changes. -/
theorem witness_OnlyTheDestinationCellChanges :
    step (loaded 4 [1101, 1, 1, 0] []) = .next (first 4 [1101, 1, 1, 0]) ∧
      (first 4 [1101, 1, 1, 0]).mem.read 0 ≠ (loaded 4 [1101, 1, 1, 0] []).mem.read 0 := ⟨rfl, by decide⟩

/-- T38 and T34. -/
theorem witness_OnlyInAndOutMeetTheCollaborators :
    (step (loaded 3 [104, -5, 99] []) = .next (first 3 [104, -5, 99]) ∧
      (first 3 [104, -5, 99]).output ≠ (loaded 3 [104, -5, 99] []).output) ∧
    (step (loaded 4 [3, 3, 99, 0] [.parseFailure, .value 5]) = .next (firstIn 4 [3, 3, 99, 0] [.parseFailure, .value 5]) ∧
      (firstIn 4 [3, 3, 99, 0] [.parseFailure, .value 5]).input ≠
        (loaded 4 [3, 3, 99, 0] [.parseFailure, .value 5]).input) := ⟨⟨rfl, by decide⟩, rfl, by decide⟩

theorem witness_NoStepChangesTheInstance : step (loaded 1 [99] []) = .next (first 1 [99]) := rfl

/-- T91: `ip` becomes `CAP`. -/
theorem witness_IpAdvancesPastTheInstruction :
    Ready (loaded 4 [1101, 1, 1, 0] []) ∧ (loaded 4 [1101, 1, 1, 0] []).cfg.wf = true ∧
      (loaded 4 [1101, 1, 1, 0] []).ip.toInt = (0 : Nat) ∧ 0 < (loaded 4 [1101, 1, 1, 0] []).cfg.cap ∧
      decode (fetchWords (loaded 4 [1101, 1, 1, 0] []) 0) =
        .ok (.add ⟨.immediate, 1⟩ ⟨.immediate, 1⟩ ⟨.position, 0⟩, []) ∧
      (∀ p0 p1, Instr.add ⟨.immediate, 1⟩ ⟨.immediate, 1⟩ ⟨.position, 0⟩ ≠ .jnz p0 p1 ∧
        Instr.add ⟨.immediate, 1⟩ ⟨.immediate, 1⟩ ⟨.position, 0⟩ ≠ .jz p0 p1) ∧
      step (loaded 4 [1101, 1, 1, 0] []) = .next (first 4 [1101, 1, 1, 0]) ∧
      (first 4 [1101, 1, 1, 0]).status ≠ .faulted :=
  ⟨⟨rfl, rfl⟩, by decide, by decide, by decide, rfl, fun _ _ => ⟨by simp, by simp⟩, rfl, by decide⟩

/-- X1: `ADD #100, #-1, [4]`. -/
theorem witness_StoredOpcodeWordIsExecutedNext :
    Ready (loaded 5 [1101, 100, -1, 4, 0] []) ∧ (loaded 5 [1101, 100, -1, 4, 0] []).cfg.wf = true ∧
      (loaded 5 [1101, 100, -1, 4, 0] []).ip.toInt = (0 : Nat) ∧ 0 + 4 < (loaded 5 [1101, 100, -1, 4, 0] []).cfg.cap ∧
      decode (fetchWords (loaded 5 [1101, 100, -1, 4, 0] []) 0) =
        .ok (.add ⟨.immediate, 100⟩ ⟨.immediate, -1⟩ ⟨.position, 4⟩, []) ∧
      val (loaded 5 [1101, 100, -1, 4, 0] []) ⟨.immediate, 100⟩ = .ok 100 ∧
      val (loaded 5 [1101, 100, -1, 4, 0] []) ⟨.immediate, -1⟩ = .ok (-1) ∧
      effectiveAddress (loaded 5 [1101, 100, -1, 4, 0] []) ⟨.position, 4⟩ = some ((0 + 4 : Nat) : Int) ∧
      (100 : Word).toInt + (-1 : Word).toInt = 99 :=
  ⟨⟨rfl, rfl⟩, by decide, by decide, by decide, rfl, rfl, rfl, rfl, by decide⟩

/-- A machine that is waiting in IN, not the reset state, meets the invariant, and its step answers a next state. -/
theorem witness_EveryStepKeepsTheInvariant :
    Inv (waiting [.value 5]) ∧ step (waiting [.value 5]) = .next (after (step (waiting [.value 5]))) :=
  ⟨⟨by decide, by decide, by decide, by decide, by decide, rfl, fun _ => rfl,
    by intro i h; cases h; exact ⟨rfl, rfl, rfl, rfl⟩⟩, rfl⟩

theorem witness_LoadMeetsTheInvariant :
    load ⟨5, .wrap⟩ [1101, 100, -1, 4, 0] ⟨[.parseFailure], .silent, .stalled, true⟩ =
      .next (after (load ⟨5, .wrap⟩ [1101, 100, -1, 4, 0] ⟨[.parseFailure], .silent, .stalled, true⟩)) := rfl

/-- A machine with an observer, about to execute T38. -/
def observed : State := { loaded 3 [104, -5, 99] [] with trace := some [] }

theorem witness_TraceObserverHasNoEffect : step observed = .next (after (step observed)) := rfl

/-- An instruction that reaches phase X; and no step, of a Halted machine, and a rejected opcode word. -/
theorem witness_TraceHasOneEventPerDecodedInstruction :
    (observed.trace = some [] ∧ step observed = .next (after (step observed)) ∧ Ready observed ∧
      current observed = some (.output ⟨.immediate, -5⟩)) ∧
    (({ first 1 [99] with trace := some [] } : State).trace = some [] ∧ ¬ Ready { first 1 [99] with trace := some [] }) ∧
    (({ loaded 1 [98] [] with trace := some [] } : State).trace = some [] ∧
      current { loaded 1 [98] [] with trace := some [] } = none) :=
  ⟨⟨rfl, rfl, ⟨rfl, rfl⟩, rfl⟩, ⟨rfl, fun h => by have := h.1; revert this; decide⟩, rfl, rfl⟩

/-- The image fills memory; its first and last values, and the first address beyond it in a larger memory. -/
theorem witness_ResetLoadsTheImage :
    load ⟨2, .fault⟩ [-9223372036854775808, 9223372036854775807] ⟨[], .readFailure, .accepting, false⟩ =
      .next (loaded 2 [-9223372036854775808, 9223372036854775807] []) ∧
    ([-9223372036854775808, 9223372036854775807] : List Int)[1]? = some 9223372036854775807 ∧
    ([-9223372036854775808, 9223372036854775807] : List Int).length ≤ 2 := ⟨rfl, rfl, by decide⟩

/-- `CAP` 1 with an image of one word; `CAP` 0 and `2^62 + 1`; one word too long; `WMAX + 1`. -/
theorem witness_LoadRefusesExactlyTheBadImages :
    (1 ≤ (⟨1, .fault⟩ : Config).cap ∧ (⟨1, .fault⟩ : Config).cap ≤ 4611686018427387904 ∧
      ([9223372036854775807] : List Int).length ≤ (⟨1, .fault⟩ : Config).cap ∧
      ∀ v ∈ ([9223372036854775807] : List Int), WMIN ≤ v ∧ v ≤ WMAX) ∧
    ((⟨0, .fault⟩ : Config).cap < 1 ∧ 4611686018427387904 < (⟨4611686018427387905, .fault⟩ : Config).cap) ∧
    (⟨1, .fault⟩ : Config).cap < ([1, 2] : List Int).length ∧
    (∃ v ∈ ([9223372036854775808] : List Int), v < WMIN ∨ WMAX < v) := by decide

theorem witness_EmptyImageFaultsAtOnce :
    (⟨1, .fault⟩ : Config).wf = true ∧ (⟨4611686018427387904, .wrap⟩ : Config).wf = true := by decide

end Sys2Proof.Tests
end

/-! Proofs of the statements of 00_scope.md: fault entry, what a step leaves of the parameters and the collaborators,
and which images a load refuses. -/

namespace Sys2Proof.Machine

/-! ## Taking a fault (R15, R161) -/

/-- Settles O10: the statement is the record update that defines `raise`. -/
theorem faultEntryWritesFourRegisters : Obligations.FaultEntryWritesFourRegisters := by
  intro s c v
  rfl

/-! ## The parameters and the collaborators (R7, R32) -/

/-- No effect of phase X touches the parameters of R7 or what the collaborators are. -/
theorem ExecEffect.keeps_config_and_collaborators {i : Instr} {s t : State} (h : ExecEffect i s t) :
    t.cfg = s.cfg ∧ t.inputEnd = s.inputEnd ∧ t.sink = s.sink := by
  cases h <;> exact ⟨rfl, rfl, rfl⟩

/-- Settles O48, by the four things a step can be: phase X of an instruction, whose state agrees with the step's first
one; no step performed; the boundary; a fault before phase X. -/
theorem noStepChangesTheInstance : Obligations.NoStepChangesTheInstance := by
  intro s t h
  rcases step_effect h with ⟨i, u, hu, he⟩ | ⟨rfl, -⟩ | ⟨rfl, -⟩ | ⟨ip, e, -, -, rfl, -⟩
  · obtain ⟨hcfg, hend, hsink⟩ := he.keeps_config_and_collaborators
    exact ⟨hcfg.trans hu.cfg, hend.trans hu.inputEnd, hsink.trans hu.sink⟩
  · exact ⟨rfl, rfl, rfl⟩
  · exact ⟨rfl, rfl, rfl⟩
  · exact ⟨rfl, rfl, rfl⟩

/-! ## Loading (R182, D24): one equation per answer of `load` -/

theorem load_capacityOutOfRange {cfg : Config} (hc : ¬ cfg.wf = true) (image : List Int) (env : Environment) :
    load cfg image env = .refused .capacityOutOfRange := by
  simp [load, hc]

theorem load_imageTooLong {cfg : Config} {image : List Int} (hc : cfg.wf = true) (hl : cfg.cap < image.length)
    (env : Environment) : load cfg image env = .refused .imageTooLong := by
  simp [load, hc, hl]

theorem load_imageValueOutOfRange {cfg : Config} {image : List Int} (hc : cfg.wf = true) (hl : image.length ≤ cfg.cap)
    (hv : image.all fits = false) (env : Environment) : load cfg image env = .refused .imageValueOutOfRange := by
  simp only [load, hc, Bool.true_eq_false, if_false, Nat.not_lt.2 hl, hv, if_true]

theorem load_starts {cfg : Config} {image : List Int} (hc : cfg.wf = true) (hl : image.length ≤ cfg.cap)
    (hv : image.all fits = true) (env : Environment) : ∃ s, load cfg image env = .next s := by
  simp only [load, hc, Bool.true_eq_false, if_false, Nat.not_lt.2 hl, hv]
  exact ⟨_, rfl⟩

/-- Settles O57: each clause's hypotheses are one branch of `load`, its capacity test read by `config_wf_iff` and its
test of the values by `fits_iff`. -/
theorem loadRefusesExactlyTheBadImages : Obligations.LoadRefusesExactlyTheBadImages := by
  intro cfg image env
  refine ⟨?starts, ?capacity, ?length, ?value⟩
  case starts =>
    rintro ⟨hlow, hhigh, hl, hv⟩
    have hfits : image.all fits = true := List.all_eq_true.2 fun v hm => fits_iff.2 (hv v hm)
    exact load_starts (config_wf_iff.2 ⟨hlow, hhigh⟩) hl hfits env
  case capacity =>
    intro hcap
    have hc : ¬ cfg.wf = true := by rw [config_wf_iff]; omega
    exact load_capacityOutOfRange hc image env
  case length =>
    intro hlow hhigh hl
    exact load_imageTooLong (config_wf_iff.2 ⟨hlow, hhigh⟩) hl env
  case value =>
    rintro hlow hhigh hl ⟨v, hm, hv⟩
    have hv' : ¬ fits v = true := fun hf => by
      obtain ⟨h1, h2⟩ : WMIN ≤ v ∧ v ≤ WMAX := fits_iff.1 hf
      omega
    exact load_imageValueOutOfRange (config_wf_iff.2 ⟨hlow, hhigh⟩) hl (List.all_eq_false.2 ⟨v, hm, hv'⟩) env

end Sys2Proof.Machine

/-! Proofs of the statements of 10_state.md: what an ended machine does, what each register and the memory are changed
by, the machine's invariant, and what reset leaves. -/

namespace Sys2Proof.Machine

/-! ## Steps and the instructions they execute -/

/-- A step executes an instruction, or keeps the memory, the relative base and the collaborators' sequences. -/
theorem step_executes_or_keeps {s t : State} (h : step s = .next t) :
    (∃ i u, Executes s i u ∧ ExecEffect i u t) ∨
      (t.mem = s.mem ∧ t.rbase = s.rbase ∧ t.output = s.output ∧ t.input = s.input) := by
  rcases step_effect h with hx | ⟨rfl, -⟩ | ⟨rfl, -⟩ | ⟨ip, e, -, -, rfl, -⟩
  · exact .inl hx
  · exact .inr ⟨rfl, rfl, rfl, rfl⟩
  · exact .inr ⟨rfl, rfl, rfl, rfl⟩
  · exact .inr ⟨rfl, rfl, rfl, rfl⟩

/-- A ready machine whose words at `ip` decode to `i` executes `i` from the state at the end of phase W. -/
theorem execEffect_of_decode {s t : State} {n : Nat} {i : Instr} {rest : List Word} (hR : Ready s) (hn : s.ip.toInt = n)
    (hc : n < s.cfg.cap) (hd : decode (fetchWords s n) = .ok (i, rest)) (h : step s = .next t) :
    ExecEffect i (decoded s (s.mem.read n) i) t := by
  rcases fetchDecode_cases s with ⟨hb, -⟩ | ⟨hneg, -⟩ | ⟨a, ha, -, ⟨e, hd', -⟩ | ⟨j, rest', hd', hf⟩⟩
  · omega
  · omega
  · obtain rfl : n = a := by omega
    rw [hd] at hd'; cases hd'
  · obtain rfl : n = a := by omega
    rw [hd] at hd'; cases hd'
    exact exec_effect_of (step_of_decoded hR hf ▸ h)

/-- The fetch at a negative `ip` (R82). -/
theorem step_of_negative_ip {s : State} (hR : Ready s) (hneg : s.ip.toInt < 0) :
    step s = .next (raise { s with a0 := s.ip } (outOfRange s.ip.toInt)) := by
  rcases fetchDecode_cases s with ⟨hb, -⟩ | ⟨-, hf⟩ | ⟨a, ha, -⟩
  · omega
  · exact step_of_stopped hR hf
  · omega

/-! ## The run state (R27, R28, R83) -/

/-- A state that its own step answers is left by no run, of any machine. -/
theorem run_of_step_self {M : Host.Core} {s : M.State} (h : M.step s = .next s) (k : Nat) : M.run k s = .next s := by
  induction k with
  | zero => rfl
  | succ k ih => simp only [Host.Core.run, h, ih]

/-- Settles O43: an ended machine's step answers the same state, and so does any number of them. -/
theorem endedMachineNeverMoves : Obligations.EndedMachineNeverMoves := by
  intro s k hs
  exact run_of_step_self (M := core) (step_of_ended hs) k

/-- Of the effects of phase X only Halt's ends in Halted. -/
theorem ExecEffect.halted_only {i : Instr} {s t : State} (h : ExecEffect i s t) (hs : s.status = .running)
    (ht : t.status = .halted) : i = .hlt ∧ t.hcause = .haltInstr := by
  cases h with
  | halted hi => exact ⟨hi, rfl⟩
  | fault | inputFault => simp at ht
  | _ => simp [hs] at ht

/-- Settles O44, by the four things a step of a Running machine can be. -/
theorem haltedOnlyByHaltOrBoundary : Obligations.HaltedOnlyByHaltOrBoundary := by
  intro s t hs h ht
  rcases step_effect h with ⟨i, u, hu, he⟩ | ⟨-, hn⟩ | ⟨rfl, hR, hb⟩ | ⟨ip, e, -, -, rfl, -⟩
  · obtain ⟨rfl, hcause⟩ := he.halted_only (hu.status.trans hs) ht
    exact .inr ⟨hcause, hu.current⟩
  · exact absurd hs hn
  · exact .inl ⟨rfl, hR.2, hb⟩
  · simp at ht

/-! ## What changes the relative base, the memory and the collaborators' sequences (R24, R36, R44, R56, R116) -/

theorem ExecEffect.rbase_eq_or_arb {i : Instr} {s t : State} (h : ExecEffect i s t) :
    t.rbase = s.rbase ∨ ∃ p, i = .arb p := by
  cases h with
  | moved p n hi => exact .inr ⟨p, hi⟩
  | _ => exact .inl rfl

/-- Settles O45: the one effect that moves the relative base is ARB's. -/
theorem onlyArbChangesTheRelativeBase : Obligations.OnlyArbChangesTheRelativeBase := by
  intro s t h hne
  rcases step_executes_or_keeps h with ⟨i, u, hu, he⟩ | ⟨-, hkeep, -, -⟩
  · rcases he.rbase_eq_or_arb with hkeep | ⟨p, rfl⟩
    · exact absurd (hkeep.trans hu.rbase) hne
    · exact ⟨p, hu.current⟩
  · exact absurd hkeep hne

/-- Phase X leaves memory as it is or writes the instruction's destination cell. -/
theorem ExecEffect.mem_eq_or_write {i : Instr} {s t : State} (h : ExecEffect i s t) :
    t.mem = s.mem ∨ ∃ (p : Param) (a : Nat) (v : Word), i.dest = some p ∧ effectiveAddress s p = some (a : Int) ∧
      a < s.cfg.cap ∧ t.mem = s.mem.write a v := by
  cases h with
  | wrote p a r hi hp ha hc => exact .inr ⟨p, a, r, hp, ha, hc, rfl⟩
  | inputWrote p v rest a hi hin ha hc => exact .inr ⟨p, a, v, hi ▸ rfl, ha, hc, rfl⟩
  | _ => exact .inl rfl

/-- Settles O46: a cell that reads differently is the one cell phase X wrote. -/
theorem onlyTheDestinationCellChanges : Obligations.OnlyTheDestinationCellChanges := by
  intro s t h b hne
  rcases step_executes_or_keeps h with ⟨i, u, hu, he⟩ | ⟨hkeep, -, -, -⟩
  · rcases he.mem_eq_or_write with hkeep | ⟨p, a, v, hp, ha, hc, hw⟩
    · exact absurd (by rw [hkeep, hu.mem]) hne
    · have hab : b = a := by
        by_contra hab
        exact hne (by rw [hw, hu.mem, Memory.read_write_other _ v hab])
      subst hab
      exact ⟨i, p, hu.current, hp, effectiveAddress_congr hu.rbase p ▸ ha, hu.cfg ▸ hc⟩
  · exact absurd (by rw [hkeep]) hne

theorem ExecEffect.output_eq_or_emitted {i : Instr} {s t : State} (h : ExecEffect i s t) :
    t.output = s.output ∨ ∃ p x, i = .output p ∧ val s p = .ok x ∧ t.output = s.output ++ [x] := by
  cases h with
  | emitted p x hi hx => exact .inr ⟨p, x, hi, hx, rfl⟩
  | _ => exact .inl rfl

theorem ExecEffect.input_eq_or_consumed {i : Instr} {s t : State} (h : ExecEffect i s t) :
    t.input = s.input ∨ ∃ p a, i = .input p ∧ s.input = a :: t.input := by
  cases h with
  | inputFault p a rest e hi hin he => exact .inr ⟨p, a, hi, hin⟩
  | inputWrote p v rest a hi hin ha hc => exact .inr ⟨p, _, hi, hin⟩
  | _ => exact .inl rfl

/-- Settles O47: the one effect that emits is OUT's, and the two that consume an answer are IN's. -/
theorem onlyInAndOutMeetTheCollaborators : Obligations.OnlyInAndOutMeetTheCollaborators := by
  intro s t h
  rcases step_executes_or_keeps h with ⟨i, u, hu, he⟩ | ⟨-, -, hout, hin⟩
  · refine ⟨fun hne => ?emits, fun hne => ?consumes⟩
    case emits =>
      rcases he.output_eq_or_emitted with hkeep | ⟨p, x, rfl, hx, hout⟩
      · exact absurd (hkeep.trans hu.output) hne
      · exact ⟨p, x, hu.current, val_congr hu.cfg hu.mem hu.rbase p ▸ hx, hu.output ▸ hout⟩
    case consumes =>
      rcases he.input_eq_or_consumed with hkeep | ⟨p, a, rfl, hin⟩
      · exact absurd (hkeep.trans hu.input) hne
      · exact ⟨p, a, hu.current, hu.input ▸ hin⟩
  · exact ⟨absurd hout, absurd hin⟩

/-! ## The instruction pointer (R22, R23, R82) -/

/-- Phase X leaves `ip` alone but for a jump (R86). -/
theorem ExecEffect.ip_eq_or_jump {i : Instr} {s t : State} (h : ExecEffect i s t) :
    t.ip = s.ip ∨ ∃ p0 p1, i = .jnz p0 p1 ∨ i = .jz p0 p1 := by
  cases h with
  | jumped p0 p1 a hi => exact .inr ⟨p0, p1, hi⟩
  | _ => exact .inl rfl

/-- Settles O49: phase X leaves `ip` where phase P put it, and under R7 that address does not wrap.
A fault of phase X leaves it there too. -/
theorem ipAdvancesPastTheInstruction : Obligations.IpAdvancesPastTheInstruction := by
  intro s t n i rest hR hwf hn hc hd hjump h _
  rcases (execEffect_of_decode hR hn hc hd h).ip_eq_or_jump with hip | ⟨p0, p1, hi⟩
  · rw [hip, decoded_ip]
    exact ipAfter_toInt hwf hn hc i.count_le
  · obtain ⟨hjnz, hjz⟩ := hjump p0 p1
    exact absurd hi (not_or.2 ⟨hjnz, hjz⟩)

/-- Settles O17: the fetch of R82 raises the address it could not read, which `fval` holds exactly. -/
theorem negativeIpFaultsAtTheFetch : Obligations.NegativeIpFaultsAtTheFetch := by
  intro s hR hneg
  have hlow := (toInt_bounds s.ip).1
  have hfval : (BitVec.ofInt 65 s.ip.toInt).toInt = s.ip.toInt := toInt_ofInt_65 (by omega) (by omega)
  exact ⟨_, step_of_negative_ip hR hneg, ⟨rfl, rfl, hfval, rfl, rfl, rfl, rfl, rfl, rfl, rfl, rfl⟩, rfl⟩

/-! ## The invariant

Every step begins Running or leaves the state alone, so what the invariant says of a Running machine is stated once, in
`RunningInv`; each effect of a step then needs only the clauses it touches. -/

/-- The invariant of a Running machine but for the clause about its latch: no cause, code, payload or position has been
written since reset. -/
structure RunningInv (s : State) : Prop where
  running : s.status = .running
  cfg_wf : s.cfg.wf = true
  mem_wf : s.mem.wf = true
  mem_below : s.mem.below s.cfg.cap = true
  hcause : s.hcause = .none
  fcode : s.fcode = .noFault
  fval : s.fval.toInt = 0
  fpos : s.fpos = 0

theorem Inv.runningInv {s : State} (h : Inv s) (hs : s.status = .running) : RunningInv s := by
  have hfcode : s.fcode = .noFault := by
    by_contra hne
    exact absurd (hs ▸ h.faulted_iff.2 hne) (by decide)
  have hhcause : s.hcause = .none := by
    by_contra hne
    exact absurd (hs ▸ h.halted_iff.2 hne) (by decide)
  have hfval : payloadOk s.cfg.cap s.fval.toInt .noFault := hfcode ▸ h.payload
  exact ⟨hs, h.cfg_wf, h.mem_wf, h.mem_below, hhcause, hfcode, hfval, h.fpos_zero hfcode⟩

namespace RunningInv

variable {s : State}

/-- The invariant of a Running machine, given its latch's clause (R31, R112, R115). -/
theorem inv (h : RunningInv s)
    (hl : ∀ i, s.latch = some i → waits i = true ∧ i.wellFormed = true ∧ s.ip = ipAfter s.a0 1) : Inv s where
  cfg_wf := h.cfg_wf
  mem_wf := h.mem_wf
  mem_below := h.mem_below
  halted_iff := by simp [h.running, h.hcause]
  faulted_iff := by simp [h.running, h.fcode]
  payload := by rw [h.fcode]; exact h.fval
  fpos_zero := fun _ => h.fpos
  latch_waits := fun i hi => ⟨h.running, hl i hi⟩

theorem inv_of_latch_empty (h : RunningInv s) (hl : s.latch = none) : Inv s := h.inv (by simp [hl])

/-- Taking a fault that phases F to X can raise ends in a state that meets the invariant (R161). -/
theorem inv_raise (h : RunningInv s) {e : Raise} (he : GoodRaise s e) : Inv (raise s e) where
  cfg_wf := h.cfg_wf
  mem_wf := h.mem_wf
  mem_below := h.mem_below
  halted_iff := by simp [h.hcause]
  faulted_iff := by simp [he.code]
  payload := by
    rw [raise_fval, toInt_ofInt_65 he.low he.high]
    exact he.payload
  fpos_zero := fun hc => absurd hc he.code
  latch_waits := by simp

/-- Halting with a cause ends in a state that meets the invariant (R28). -/
theorem inv_haltWith (h : RunningInv s) {c : HaltCause} (hc : c ≠ .none) : Inv (haltWith s c) where
  cfg_wf := h.cfg_wf
  mem_wf := h.mem_wf
  mem_below := h.mem_below
  halted_iff := by simp [hc]
  faulted_iff := by simp [h.fcode]
  payload := by rw [haltWith_fcode, h.fcode]; exact h.fval
  fpos_zero := fun _ => h.fpos
  latch_waits := by simp

/-- A store below the capacity keeps the canonical form and the bound of memory (R40, R43). -/
theorem write (h : RunningInv s) {a : Nat} (ha : a < s.cfg.cap) (v : Word) :
    RunningInv { s with mem := s.mem.write a v } :=
  { h with mem_wf := Memory.write_wf h.mem_wf a v, mem_below := Memory.write_below h.mem_below ha v }

/-- Nothing is asked of the registers an instruction moves, nor of what the collaborators have given and received. -/
theorem moved (h : RunningInv s) (a0 ip rbase : Word) (latch : Option Instr) (input : List Answer) (output : List Word)
    (trace : Option (List TraceEvent)) :
    RunningInv { s with
      a0 := a0, ip := ip, rbase := rbase, latch := latch, input := input, output := output, trace := trace } :=
  { h with }

end RunningInv

/-- A payload is judged by the capacity alone. -/
theorem GoodRaise.of_cfg_eq {s u : State} {e : Raise} (h : GoodRaise s e) (hcfg : u.cfg = s.cfg) : GoodRaise u e :=
  ⟨h.code, by rw [hcfg]; exact h.payload, h.low, h.high⟩

theorem waits_count {i : Instr} (h : waits i = true) : i.count = 1 := by
  cases i with
  | input p | output p => rfl
  | _ => cases h

/-- The state phase X begins in, when the step began in a state that meets the invariant. -/
theorem Executes.runningInv {s u : State} {i : Instr} (hu : Executes s i u) (h : Inv s) : RunningInv u := by
  have hs : RunningInv s := h.runningInv hu.running
  rcases hu.from_latch_or_decode with ⟨rfl, -⟩ | ⟨a, -, -, -, rfl, -⟩
  · exact hs
  · exact hs.moved ..

/-- An instruction that can wait is executed with `ip` past its two words, whether it comes from the latch or the decoder. -/
theorem Executes.ip_of_waits {s u : State} {i : Instr} (hu : Executes s i u) (h : Inv s) (hw : waits i = true) :
    u.ip = ipAfter u.a0 1 := by
  rcases hu.from_latch_or_decode with ⟨rfl, hl⟩ | ⟨a, -, -, -, rfl, -⟩
  · obtain ⟨-, -, -, hip⟩ := h.latch_waits i hl
    exact hip
  · rw [decoded_ip, decoded_a0, waits_count hw]

/-- Every effect of phase X ends in a state that meets the invariant. -/
theorem ExecEffect.inv {i : Instr} {s t : State} (h : ExecEffect i s t) (hs : RunningInv s)
    (hip : waits i = true → s.ip = ipAfter s.a0 1) : Inv t := by
  cases h with
  | fault e he => exact hs.inv_raise he
  | inputFault p a rest e hi hin he =>
    exact RunningInv.inv_raise (hs.moved ..) (he.of_cfg_eq rfl)
  | wrote p a r hi hp ha hc =>
    exact RunningInv.inv_of_latch_empty ((hs.write hc r).moved ..) rfl
  | inputWrote p v rest a hi hin ha hc =>
    exact RunningInv.inv_of_latch_empty ((hs.write hc v).moved ..) rfl
  | emitted | jumped | moved => exact RunningInv.inv_of_latch_empty (hs.moved ..) rfl
  | halted hi => exact hs.inv_haltWith (by decide)
  | waited hw hf =>
    refine RunningInv.inv (hs.moved ..) fun j hj => ?_
    cases hj
    exact ⟨hw, hf, hip hw⟩

/-- Settles O51, by the four things a step can be. -/
theorem everyStepKeepsTheInvariant : Obligations.EveryStepKeepsTheInvariant := by
  intro s t h hstep
  rcases step_effect hstep with ⟨i, u, hu, he⟩ | ⟨rfl, -⟩ | ⟨rfl, hR, -⟩ | ⟨ip, e, hR, he, rfl, -⟩
  · exact he.inv (hu.runningInv h) (hu.ip_of_waits h)
  · exact h
  · exact (h.runningInv hR.1).inv_haltWith (by decide)
  · exact RunningInv.inv_raise ((h.runningInv hR.1).moved ..) (he.of_cfg_eq rfl)

/-! ## Reset (R35, R180, R182) -/

/-- Settles O52: the machine after reset is Running, its memory empty and its latch too. -/
theorem resetMeetsTheInvariant : Obligations.ResetMeetsTheInvariant :=
  have hrun : RunningInv State.reset := ⟨rfl, by decide, rfl, rfl, rfl, rfl, rfl, rfl⟩
  hrun.inv_of_latch_empty rfl

/-- Settles O53: an image that is not refused fits the capacity, and filling an empty memory with it keeps the canonical
form. -/
theorem loadMeetsTheInvariant : Obligations.LoadMeetsTheInvariant := by
  intro cfg image env s h
  obtain ⟨hwf, hlen, -, rfl⟩ := load_next h
  have hbelow : (Memory.writeAll [] 0 (image.map (BitVec.ofInt 64))).below cfg.cap = true :=
    Memory.writeAll_below _ rfl (by simpa using hlen)
  exact RunningInv.inv_of_latch_empty ⟨rfl, hwf, Memory.writeAll_wf rfl 0 _, hbelow, rfl, rfl, rfl, rfl⟩ rfl

/-- What the memory filled from an image reads as (R35: `mem[i] <- program[i]`, zeros beyond). -/
theorem Memory.read_image (image : List Int) (k : Nat) :
    (Memory.writeAll [] 0 (image.map (BitVec.ofInt 64))).read k = ((image.map (BitVec.ofInt 64))[k]?).getD 0 := by
  rw [Memory.read_writeAll, if_pos (Nat.zero_le k), Nat.sub_zero]
  rfl

/-- Settles O56: the registers are those of `State.reset`; a cell of the image holds a value that fits, and a cell beyond
it was never written. -/
theorem resetLoadsTheImage : Obligations.ResetLoadsTheImage := by
  intro cfg image env s h
  obtain ⟨-, -, hfits, rfl⟩ := load_next h
  refine ⟨rfl, rfl, rfl, rfl, rfl, rfl, rfl, rfl, rfl, rfl, rfl, ?inside, ?beyond⟩
  case inside =>
    intro k v hk
    have hv : fits v = true := List.all_eq_true.1 hfits v (List.mem_of_getElem? hk)
    rw [Memory.read_image, List.getElem?_map, hk]
    exact toInt_ofInt_of_fits hv
  case beyond =>
    intro k hk
    rw [Memory.read_image, List.getElem?_eq_none (by simpa using hk)]
    rfl

/-! ## The host's view (R34) -/

/-- Settles O59: the numbers are `RunStatus.code`, `HaltCause.code` and `FaultCode.code` at each of their values. -/
theorem hostReadsTheStatusNumbers : Obligations.HostReadsTheStatusNumbers :=
  ⟨by decide, by decide, by decide, fun _ => rfl⟩

end Sys2Proof.Machine

/-! Proofs of the statements of 20_memory.md: bounds-checked access, the one canonical form of a memory's content, and
that a store is seen by the next fetch. -/

namespace Sys2Proof.Machine

/-! ## Bounds-checked access (R42, R43) -/

/-- Settles O5: each clause is the equation of `memRead` or `memWrite` inside or outside the bounds, and what the one
write leaves is `Memory.read_write_same` and `Memory.read_write_other`. -/
theorem memoryAccessIsBoundsChecked : Obligations.MemoryAccessIsBoundsChecked := by
  intro s v
  refine ⟨?readInside, ?readOutside, ?writeInside, ?writeOutside⟩
  case readInside => exact fun n hn => memRead_nat hn
  case readOutside => exact fun a ha => memRead_of_not_inBounds (not_inBounds ha)
  case writeInside =>
    intro n hn
    exact ⟨_, memWrite_nat hn v, Memory.read_write_same s.mem n v, fun b hb => Memory.read_write_other s.mem v hb, rfl⟩
  case writeOutside => exact fun a ha => memWrite_of_not_inBounds (not_inBounds ha) v

/-! ## The canonical form (R40, R182) -/

theorem Memory.read_cons_same (b : Nat) (u : Word) (m : Memory) : Memory.read ((b, u) :: m) b = u := if_pos rfl

theorem Memory.read_cons_other {a b : Nat} (h : a ≠ b) (u : Word) (m : Memory) :
    Memory.read ((b, u) :: m) a = m.read a := if_neg h

/-- A memory that reads like a canonical one lists some address no greater than the canonical one's first: there it does
not read as an unlisted word. -/
theorem Memory.not_above_first_address {b : Nat} {u : Word} {m m' : Memory} (h : Memory.wf ((b, u) :: m) = true)
    (halike : ∀ a, Memory.read ((b, u) :: m) a = m'.read a) : ¬ ∀ c ∈ m', b < c.1 := by
  intro habove
  obtain ⟨hu, -, -⟩ := Memory.wf_cons.1 h
  refine hu ?_
  calc u = Memory.read ((b, u) :: m) b := (Memory.read_cons_same b u m).symm
    _ = m'.read b := halike b
    _ = unlistedWord := Memory.read_of_lt habove

/-- The first address of a canonical memory is the least address that reads as a listed word. -/
theorem Memory.first_address_le {b b' : Nat} {u u' : Word} {m m' : Memory} (h : Memory.wf ((b, u) :: m) = true)
    (h' : Memory.wf ((b', u') :: m') = true)
    (halike : ∀ a, Memory.read ((b, u) :: m) a = Memory.read ((b', u') :: m') a) : b' ≤ b := by
  by_contra hlt
  obtain ⟨-, hb', -⟩ := Memory.wf_cons.1 h'
  refine Memory.not_above_first_address h halike fun c hc => ?_
  rcases List.mem_cons.1 hc with rfl | hc
  · exact Nat.lt_of_not_le hlt
  · exact (Nat.lt_of_not_le hlt).trans (hb' c hc)

/-- Below a first pair they share, two canonical memories that read alike read alike too. -/
theorem Memory.tails_read_alike {b : Nat} {u u' : Word} {m m' : Memory} (h : Memory.wf ((b, u) :: m) = true)
    (h' : Memory.wf ((b, u') :: m') = true)
    (halike : ∀ a, Memory.read ((b, u) :: m) a = Memory.read ((b, u') :: m') a) (a : Nat) : m.read a = m'.read a := by
  obtain ⟨-, hb, -⟩ := Memory.wf_cons.1 h
  obtain ⟨-, hb', -⟩ := Memory.wf_cons.1 h'
  by_cases hab : a = b
  · rw [hab, Memory.read_of_lt hb, Memory.read_of_lt hb']
  · rw [← Memory.read_cons_other hab u m, halike a, Memory.read_cons_other hab u' m']

/-- Settles O6, by induction on the two lists: the first addresses agree, for each is no greater than the other; then
the first words do, and the rest read alike. -/
theorem canonicalMemoriesThatReadAlikeAreEqual : Obligations.CanonicalMemoriesThatReadAlikeAreEqual := by
  intro m
  induction m with
  | nil =>
    intro m' _ h' halike
    cases m' with
    | nil => rfl
    | cons d m' => exact absurd (by simp) (Memory.not_above_first_address h' fun a => (halike a).symm)
  | cons c m ih =>
    intro m' h h' halike
    cases m' with
    | nil => exact absurd (by simp) (Memory.not_above_first_address h halike)
    | cons d m' =>
      obtain ⟨b, u⟩ := c
      obtain ⟨b', u'⟩ := d
      obtain rfl : b = b' := Nat.le_antisymm (Memory.first_address_le h' h fun a => (halike a).symm)
        (Memory.first_address_le h h' halike)
      have hu : u = u' := by simpa only [Memory.read_cons_same] using halike b
      obtain ⟨-, -, hm⟩ := Memory.wf_cons.1 h
      obtain ⟨-, -, hm'⟩ := Memory.wf_cons.1 h'
      rw [hu, ih m' hm hm' (Memory.tails_read_alike h h' halike)]

/-! ## A store is seen by the next fetch (R50, R191) -/

/-- Phases B to W of a state whose words at `ip` decode to `i`. -/
theorem fetchDecode_of_decode {s : State} {n : Nat} {i : Instr} {rest : List Word} (hn : s.ip.toInt = n)
    (hc : n < s.cfg.cap) (hd : decode (fetchWords s n) = .ok (i, rest)) :
    fetchDecode s = .ok (i, decoded s (s.mem.read n) i) := by
  have hb : ¬ (s.cfg.cap : Int) ≤ n := by omega
  simp only [fetchDecode, hn, if_neg hb, memRead_nat hc, Int.toNat_natCast, hd]

/-- A ready machine whose words at `ip` decode to `i` executes `i` from the state at the end of phase W. -/
theorem step_eq_exec_of_decode {s : State} {n : Nat} {i : Instr} {rest : List Word} (hR : Ready s) (hn : s.ip.toInt = n)
    (hc : n < s.cfg.cap) (hd : decode (fetchWords s n) = .ok (i, rest)) :
    step s = exec i (decoded s (s.mem.read n) i) :=
  step_of_decoded hR (fetchDecode_of_decode hn hc hd)

/-- The ALU's sum of two words whose exact sum is the value of a word (R92, R100), under either overflow mode. -/
theorem aluAdd_of_toInt_eq {x y r : Word} (h : x.toInt + y.toInt = r.toInt) (o : Overflow) : aluAdd o x y = .ok r := by
  rw [aluAdd, h, narrow_of_fits (fits_toInt r), BitVec.ofInt_toInt]

/-- A whole step of an ADD that completes (R100): the sum is in the destination cell, everything else is as at the end
of phase W, and the latch is empty again. -/
theorem step_add_completes {s : State} {n a : Nat} {p0 p1 p2 : Param} {x y r : Word} {rest : List Word} (hR : Ready s)
    (hn : s.ip.toInt = n) (hc : n < s.cfg.cap) (hd : decode (fetchWords s n) = .ok (.add p0 p1 p2, rest))
    (h0 : val s p0 = .ok x) (h1 : val s p1 = .ok y) (hr : x.toInt + y.toInt = r.toInt)
    (hp : effectiveAddress s p2 = some (a : Int)) (ha : a < s.cfg.cap) :
    step s = .next { decoded s (s.mem.read n) (.add p0 p1 p2) with mem := s.mem.write a r, latch := none } := by
  rw [step_eq_exec_of_decode hR hn hc hd]
  exact execRRW_completes ((val_congr (by simp) (by simp) (by simp) p0).trans h0)
    ((val_congr (by simp) (by simp) (by simp) p1).trans h1) (aluAdd_of_toInt_eq hr _)
    ((effectiveAddress_congr (by simp) p2).trans hp) ha

/-- The word 99 is Halt, whatever follows it (R66, R145). -/
theorem decode_ninetyNine (ws : List Word) : decode (99 :: ws) = .ok (.hlt, ws) :=
  decode_of_op (o := .hlt) (by decide) ws

/-- A ready machine with 99 at `ip` halts, its `ip` past that word (R145). -/
theorem step_of_ninetyNine {s : State} {n : Nat} (hR : Ready s) (hn : s.ip.toInt = n) (hc : n < s.cfg.cap)
    (h99 : s.mem.read n = 99) : step s = .next (haltWith (decoded s 99 .hlt) .haltInstr) := by
  have hd : decode (fetchWords s n) = .ok (.hlt, wordsFrom s.mem s.cfg.cap (n + 1) 3) := by
    rw [fetchWords_cons hc, h99, decode_ninetyNine]
  rw [step_eq_exec_of_decode hR hn hc hd, h99]
  rfl

/-- Settles O50: the ADD leaves a ready machine with `ip` at the cell it stored 99 in, and that word halts it. -/
theorem storedOpcodeWordIsExecutedNext : Obligations.StoredOpcodeWordIsExecutedNext := by
  intro s n p0 p1 p2 x y rest hR hwf hn hc hd h0 h1 hp hsum
  have hr : x.toInt + y.toInt = (99 : Word).toInt := hsum.trans (by decide)
  have hadd := step_add_completes hR hn (by omega) hd h0 h1 hr hp hc
  set t : State := { decoded s (s.mem.read n) (.add p0 p1 p2) with mem := s.mem.write (n + 4) 99, latch := none }
  have hip : t.ip.toInt = (n + 4 : Nat) := ipAfter_toInt (k := 3) hwf hn (by omega) (by omega)
  have hhalt := step_of_ninetyNine (s := t) ⟨hR.1, rfl⟩ hip hc (Memory.read_write_same s.mem (n + 4) 99)
  have hpast : (ipAfter t.ip 0).toInt = (n + 4 : Nat) + 1 + (0 : Nat) := ipAfter_toInt hwf hip hc (by omega)
  exact ⟨t, _, hadd, hhalt, rfl, rfl, hpast.trans (by omega)⟩

end Sys2Proof.Machine

/-! Proofs of the statements of 30_encoding.md: decoding inverts encoding, which digits of an opcode word are examined, and
the step that runs or rejects the words at `ip`. -/

namespace Sys2Proof

/-! ## What decodes: the words of the instruction, under any opcode word with its opcode and its mode digits -/

/-- A parameter decodes from its raw word where its mode digit stands in the opcode word (R65, R85). -/
theorem decodeParam_raw {w : Word} {k : Nat} {p : Param} (h : modeDigit w k = p.mode.digit) (rest : List Word) :
    decodeParam w k (p.raw :: rest) = .ok (p, rest) :=
  decodeParam_of_mode h p.raw rest

/-- The converse of `decode_ok`: the opcode of a well-formed instruction and the mode digits of its parameters, followed
by its raw words, decode to it. -/
theorem decode_of_digits {w : Word} {i : Instr} (ho : Op.ofValue (opcodeValue w) = some i.op) (hw : i.wellFormed = true)
    (hm : ∀ k p, i.params[k]? = some p → modeDigit w k = p.mode.digit) (rest : List Word) :
    decode (w :: (i.raws ++ rest)) = .ok (i, rest) := by
  rw [decode_of_op ho]
  cases i
  case add p0 p1 p2 | mul p0 p1 p2 | lt p0 p1 p2 | eq p0 p1 p2 =>
    have hp : p2.canBeWritten = true := hw
    simp [Instr.op, decodeOp, decodeRRW, Instr.raws, Instr.params, decodeParam_raw (hm 0 p0 rfl),
      decodeParam_raw (hm 1 p1 rfl), decodeParam_raw (hm 2 p2 rfl), hp, bind, Except.bind]
  case jnz p0 p1 | jz p0 p1 =>
    simp [Instr.op, decodeOp, decodeRR, Instr.raws, Instr.params, decodeParam_raw (hm 0 p0 rfl),
      decodeParam_raw (hm 1 p1 rfl), bind, Except.bind]
  case input p0 =>
    have hp : p0.canBeWritten = true := hw
    simp [Instr.op, decodeOp, decodeW, Instr.raws, Instr.params, decodeParam_raw (hm 0 p0 rfl), hp, bind, Except.bind]
  case output p0 | arb p0 =>
    simp [Instr.op, decodeOp, decodeR, Instr.raws, Instr.params, decodeParam_raw (hm 0 p0 rfl), bind, Except.bind]
  case hlt => rfl

/-- Settles O2: the canonical opcode word has the instruction's opcode and its parameters' mode digits. -/
theorem decodeInvertsEncode : Obligations.DecodeInvertsEncode := by
  intro i rest hw
  refine decode_of_digits (ofValue_canonical i) hw (fun k p hp => ?_) rest
  obtain ⟨hk, rfl⟩ := List.getElem?_eq_some_iff.1 hp
  exact modeDigit_canonical i k hk

/-- Settles O1, one evaluation of the decoder for each word list. -/
theorem decodesWordsWrittenFromTheSpec : Obligations.DecodesWordsWrittenFromTheSpec :=
  ⟨by decide, by decide, by decide, by decide, by decide, by decide, by decide, by decide, by decide, by decide⟩

/-! ## The examined digits of an opcode word (R61, R70) -/

theorem ten_pow_two_add (k : Nat) : 10 ^ (2 + k) = 100 * 10 ^ k := pow_add 10 2 k

/-- The mode digits are the digits of what stands above the opcode (R61). -/
theorem modeDigit_eq_digit_above_opcode (w : Word) : modeDigit w = decimalDigit (w.toNat / 100) := by
  funext k
  rw [modeDigit, decimalDigit, decimalDigit, ten_pow_two_add, Nat.div_div_eq_div_mul]

/-- The mode digits of parameters, read as one number, are the low digits of any number with these digits. -/
theorem modeNumber_eq_mod {ps : List Param} {n : Nat}
    (h : ps.map (fun p => p.mode.digit) = (List.range ps.length).map (decimalDigit n)) :
    modeNumber ps = n % 10 ^ ps.length := by
  induction ps generalizing n with
  | nil => simp [modeNumber, Nat.mod_one]
  | cons p ps ih =>
    have hshift : ∀ k, decimalDigit n (k + 1) = decimalDigit (n / 10) k := fun k => by
      rw [decimalDigit, decimalDigit, pow_succ', Nat.div_div_eq_div_mul]
    simp only [List.map_cons, List.length_cons, List.range_succ_eq_map, List.map_map, List.cons.injEq] at h
    obtain ⟨hp, hps⟩ := h
    have hps' : modeNumber ps = n / 10 % 10 ^ ps.length := ih (by simpa [Function.comp_def, hshift] using hps)
    have hp' : p.mode.digit = n % 10 := by simpa [decimalDigit] using hp
    rw [modeNumber, hps', hp', List.length_cons, pow_succ', Nat.mod_mul]

/-- Settles O3: `decode_ok` gives the opcode and the mode digits, which are all the digits of the canonical word. -/
theorem decodedInstructionIsItsWords : Obligations.DecodedInstructionIsItsWords := by
  intro w ws rest i h
  obtain ⟨ho, hws, hwf, hm⟩ := decode_ok h
  have hnonneg : 0 ≤ w.toInt := nonneg_of_ofValue ho
  refine ⟨hnonneg, hwf, hws, ?_⟩
  have hop : w.toNat % 100 = i.op.code := by
    have hcode := Op.code_of_ofValue ho
    rw [Machine.opcodeValue_toNat hnonneg] at hcode
    exact_mod_cast hcode
  have hmodes : modeNumber i.params = w.toNat / 100 % 10 ^ i.count :=
    modeNumber_eq_mod (by rw [hm, modeDigits, modeDigit_eq_digit_above_opcode, Instr.count])
  calc w.toNat % 10 ^ (2 + i.count) = w.toNat % 100 + 100 * (w.toNat / 100 % 10 ^ i.count) := by
        rw [ten_pow_two_add, Nat.mod_mul]
    _ = canonicalOpcode i := by rw [hop, ← hmodes, canonicalOpcode]

/-- A digit is one of the low digits. -/
theorem decimalDigit_mod_pow {k c : Nat} (h : k < c) (n : Nat) : decimalDigit (n % 10 ^ c) k = decimalDigit n k := by
  have hdvd : 10 ^ k * 10 ∣ 10 ^ c := pow_succ 10 k ▸ Nat.pow_dvd_pow 10 h
  rw [decimalDigit, decimalDigit, ← Nat.mod_mul_right_div_self, Nat.mod_mod_of_dvd _ hdvd, Nat.mod_mul_right_div_self]

theorem decodeParam_congr {w w' : Word} {k : Nat} (h : modeDigit w' k = modeDigit w k) :
    decodeParam w' k = decodeParam w k := by
  funext ws
  cases ws with
  | nil => rfl
  | cons raw rest => simp only [decodeParam, h]

/-- The decoder looks at the opcode value and at the mode digits of the instruction's own parameters only (R70). -/
theorem decode_congr {w w' : Word} {o : Op} (ho : Op.ofValue (opcodeValue w) = some o)
    (hv : opcodeValue w' = opcodeValue w) (hd : ∀ k, k < o.count → modeDigit w' k = modeDigit w k) (ws : List Word) :
    decode (w' :: ws) = decode (w :: ws) := by
  rw [decode_of_op ho, decode_of_op (hv ▸ ho)]
  have hp : ∀ k, k < o.count → decodeParam w' k = decodeParam w k := fun k hk => decodeParam_congr (hd k hk)
  cases o with
  | add | mul | lt | eq =>
    simp only [decodeOp, decodeRRW, hp 0 (by decide), hp 1 (by decide), hp 2 (by decide)]
  | jnz | jz => simp only [decodeOp, decodeRR, hp 0 (by decide), hp 1 (by decide)]
  | input => simp only [decodeOp, decodeW, hp 0 (by decide)]
  | output | arb => simp only [decodeOp, decodeR, hp 0 (by decide)]
  | hlt => rfl

/-- Settles O4: words that agree in their `2 + count` low digits agree in what `decode_congr` names. -/
theorem digitsAboveTheParametersAreIgnored : Obligations.DigitsAboveTheParametersAreIgnored := by
  intro w w' ws o hw hw' ho h
  have hdvd : 100 ∣ 10 ^ (2 + o.count) := ⟨10 ^ o.count, ten_pow_two_add o.count⟩
  have hlow : w'.toNat % 100 = w.toNat % 100 := by
    rw [← Nat.mod_mod_of_dvd w'.toNat hdvd, h, Nat.mod_mod_of_dvd _ hdvd]
  have hvalue : opcodeValue w' = opcodeValue w := by rw [Machine.opcodeValue_toNat hw', Machine.opcodeValue_toNat hw, hlow]
  refine decode_congr ho hvalue (fun k hk => ?_) ws
  have hk' : 2 + k < 2 + o.count := by omega
  rw [modeDigit, modeDigit, ← decimalDigit_mod_pow hk' w'.toNat, h, decimalDigit_mod_pow hk']

/-! ## An Immediate destination is the one rejection of phase W (R69, R88) -/

/-- The mode of a decoded parameter is its mode digit. -/
theorem modeDigit_of_decode {w : Word} {ws rest : List Word} {i : Instr} (h : decode (w :: ws) = .ok (i, rest)) {k : Nat}
    {p : Param} (hp : i.params[k]? = some p) : modeDigit w k = p.mode.digit := by
  obtain ⟨-, -, -, hm⟩ := decode_ok h
  have hk : k < i.count := (List.getElem?_eq_some_iff.1 hp).1
  have hat := congrArg (·[k]?) hm
  simpa [modeDigits, hp, hk] using hat.symm

/-- The destination of a well-formed instruction has no mode digit 1. -/
theorem dest_digit_ne_one {i : Instr} (hw : i.wellFormed = true) {p : Param} (hp : i.dest = some p) :
    p.mode.digit ≠ 1 := by
  have hcan : p.canBeWritten = true := by simpa [Instr.wellFormed, hp] using hw
  intro h1
  cases hmode : p.mode with
  | position | relative => simp [hmode, Mode.digit] at h1
  | immediate => simp [Param.canBeWritten, hmode] at hcan

/-- Parameter `d` of operation `o` is its destination (R64, R84). -/
def WritesParam (o : Op) (d : Nat) : Prop :=
  (o = .add ∨ o = .mul ∨ o = .lt ∨ o = .eq) ∧ d = 2 ∨ o = .input ∧ d = 0

/-- An instruction of such an operation has its destination at that place among its parameters. -/
theorem WritesParam.dest_eq {i : Instr} {d : Nat} (h : WritesParam i.op d) :
    ∃ p, i.dest = some p ∧ i.params[d]? = some p := by
  rcases h with ⟨hop, rfl⟩ | ⟨hop, rfl⟩
  · cases i with
    | add p0 p1 p2 | mul p0 p1 p2 | lt p0 p1 p2 | eq p0 p1 p2 => exact ⟨p2, rfl, rfl⟩
    | _ => simp [Instr.op] at hop
  · cases i with
    | input p0 => exact ⟨p0, rfl, rfl⟩
    | _ => simp [Instr.op] at hop

/-- With every parameter word there and every mode digit a mode, digit 1 at the destination is what is left to reject: of
the answers of `decode_ok` and `decode_error` only one agrees with this. -/
theorem decode_immediate_destination {w : Word} {ws : List Word} {o : Op} {d : Nat}
    (ho : Op.ofValue (opcodeValue w) = some o) (hl : o.count ≤ ws.length) (hm : ∀ k, k < o.count → modeDigit w k ≤ 2)
    (hd : WritesParam o d) (h1 : modeDigit w d = 1) : decode (w :: ws) = .error (.invalidWriteDestination o.count) := by
  cases h : decode (w :: ws) with
  | ok r =>
    obtain ⟨i, rest⟩ := r
    obtain ⟨hop, -, hwf, -⟩ := decode_ok h
    obtain rfl : o = i.op := Option.some.inj (ho.symm.trans hop)
    obtain ⟨p, hdest, hp⟩ := hd.dest_eq
    exact absurd ((modeDigit_of_decode h hp).symm.trans h1) (dest_digit_ne_one hwf hdest)
  | error e =>
    rcases decode_error h with ⟨hnone, -⟩ | ⟨o', ho', hcase⟩
    · rw [ho] at hnone; cases hnone
    · obtain rfl : o = o' := Option.some.inj (ho.symm.trans ho')
      rcases hcase with ⟨k, hk, hlen, -⟩ | ⟨k, hk, hbad, -⟩ | rfl
      · omega
      · have := hm k hk; omega
      · rfl

end Sys2Proof

namespace Sys2Proof.Machine

/-! ## A step runs the words at `ip` (R60, R73, R80) -/

/-- What the decoder is given starts with the words that lie in memory. -/
theorem fetchWords_startsWith {s : State} {n : Nat} {ws : List Word} (hl : ws.length ≤ maxLength)
    (hc : n + ws.length ≤ s.cfg.cap) (hm : ∀ k, k < ws.length → ws[k]? = some (s.mem.read (n + k))) :
    ws <+: fetchWords s n := by
  rw [List.prefix_iff_getElem?]
  intro k hk
  rw [← List.getElem?_eq_getElem hk, hm k hk, fetchWords, wordsFrom_getElem?, if_pos (by omega)]

theorem encode_length (i : Instr) : (encode i).length = 1 + i.count := by
  simp [encode, Instr.raws, Instr.count, Nat.add_comm]

/-- Settles O15: what is fetched is the encoded words and some that follow, and decoding inverts encoding. -/
theorem stepRunsTheEncodedInstruction : Obligations.StepRunsTheEncodedInstruction := by
  intro s n i hR hn hw hc hm
  have hlen := encode_length i
  have h3 := i.count_le
  obtain ⟨rest, hrest⟩ : encode i <+: fetchWords s n :=
    fetchWords_startsWith (by simp only [maxLength]; omega) (by omega) (hlen ▸ hm)
  have hd : decode (fetchWords s n) = .ok (i, rest) := hrest ▸ decodeInvertsEncode i rest hw
  exact ⟨_, step_eq_exec_of_decode hR hn (by omega) hd⟩

/-! ## A step rejects the words at `ip` (R67, R68, R88) -/

/-- Settles O18: neither a negative word nor one with another remainder has an opcode. -/
theorem illegalOpcodeFaults : Obligations.IllegalOpcodeFaults := by
  intro s n hR hn hc hbad
  have hnone : Op.ofValue (opcodeValue (s.mem.read n)) = none := by
    cases ho : Op.ofValue (opcodeValue (s.mem.read n)) with
    | none => rfl
    | some o =>
      have hnonneg := nonneg_of_ofValue ho
      rcases hbad with hneg | hlow
      · omega
      · rw [← opcodeValue_of_nonneg hnonneg, ← ofValue_eq_none_iff, ho] at hlow
        cases hlow
  have hd : decode (fetchWords s n) = .error (.invalidOpcode (opcodeValue (s.mem.read n))) := by
    rw [fetchWords_cons hc, decode_of_no_op hnone]
  rw [← opcodeValue_eq_tmod]
  exact rejected_faultsAs hR hn hc hd

/-- Settles O19: the decoder stops at parameter `k`, whose word is there and whose digit is no mode. -/
theorem illegalModeDigitFaults : Obligations.IllegalModeDigitFaults := by
  intro s n k o hR hn h0 hop hk hc hlow hbad
  have hcn : n < s.cfg.cap := by omega
  have hlen := wordsFrom_length s.mem s.cfg.cap (n + 1) 3
  have h3 := o.count_le
  set ws := wordsFrom s.mem s.cfg.cap (n + 1) 3
  have hparam : decodeParam (s.mem.read n) k (ws.drop k) =
      .error (.invalidAddressingMode (modeDigit (s.mem.read n) k)) := by
    rw [List.drop_eq_getElem_cons (by omega)]
    exact decodeParam_bad hbad _ _
  have hd : decode (fetchWords s n) = .error (.invalidAddressingMode (modeDigit (s.mem.read n) k)) := by
    rw [fetchWords_cons hcn]
    exact decode_stop (ofValue_of_code h0 hop) hk ws hlow (by omega) hparam
  exact rejected_faultsAs hR hn hcn hd

/-- Settles O21: with the parameter words in memory and the digits accepted, the destination is what is rejected. -/
theorem immediateDestinationFaultsAtDecode : Obligations.ImmediateDestinationFaultsAtDecode := by
  intro s n d o hR hn h0 hop hc hdest hlow h1
  have hcn : n < s.cfg.cap := by omega
  have hlen := wordsFrom_length s.mem s.cfg.cap (n + 1) 3
  have h3 := o.count_le
  have hd : decode (fetchWords s n) = .error (.invalidWriteDestination o.count) := by
    rw [fetchWords_cons hcn]
    exact decode_immediate_destination (ofValue_of_code h0 hop) (by omega) hlow hdest h1
  exact rejected_faultsAs hR hn hcn hd

/-- Settles O58: after a load of the empty image the machine is ready, `ip` is 0 and so is every cell, which is no
opcode. -/
theorem emptyImageFaultsAtOnce : Obligations.EmptyImageFaultsAtOnce := by
  intro cfg env hwf
  obtain ⟨hcap, -⟩ := config_wf_iff.1 hwf
  obtain ⟨s, hload⟩ := load_starts (image := []) hwf (Nat.zero_le _) rfl env
  obtain ⟨hip, -, hrun, -, -, -, -, hlatch, -, rfl, -, -, hzero⟩ := resetLoadsTheImage cfg [] env s hload
  have hcell : s.mem.read 0 = 0 := hzero 0 (Nat.le_refl 0)
  obtain ⟨t, hstep, hfault⟩ :=
    illegalOpcodeFaults s 0 ⟨hrun, hlatch⟩ (by rw [hip]; rfl) hcap (.inr (by rw [hcell]; decide))
  rw [hcell] at hfault
  exact ⟨s, t, hload, hstep, hfault, hfault.fpos.trans hip⟩

/-! ## Every step answers (R71, R94, R161) -/

/-- Settles O42, by what a step can be: it answers a state outright, or is phase X of an instruction, which has one of
the effects. -/
theorem everyStepAnswersANextState : Obligations.EveryStepAnswersANextState := by
  have hexec : ∀ i s, ∃ t, exec i s = .next t := fun i s => (exec_effect i s).imp fun _ ⟨h, _⟩ => h
  intro s
  rcases step_cases s with ⟨-, he⟩ | ⟨i, -, -, he⟩ | ⟨-, -, he⟩ | ⟨-, -, he⟩ |
    ⟨a, -, -, -, ⟨e, -, he⟩ | ⟨i, rest, -, he⟩⟩
  · exact ⟨_, he⟩
  · exact he ▸ hexec i s
  · exact ⟨_, he⟩
  · exact ⟨_, he⟩
  · exact ⟨_, he⟩
  · exact he ▸ hexec i _

end Sys2Proof.Machine

/-! Proofs of the statements of 40_fetch_decode_resolve.md: the value of an operand and the address of a destination, the
faults of phase X in their order, the missing parameter word, and how a step begins. -/

namespace Sys2Proof.Machine

/-! ## Operands and destinations (R89 to R91) -/

/-- Settles O7: a Position operand's address is its raw word, a Relative one's is the exact sum, and each is read or out of
range; an Immediate operand has no address. -/
theorem operandValueByMode : Obligations.OperandValueByMode := by
  intro s r
  have hpos := effectiveAddress_position s r
  have hrel := effectiveAddress_relative s r
  refine ⟨rfl, ?positionInside, ?positionOutside, ?relativeInside, ?relativeOutside⟩
  case positionInside => exact fun n hn hc => val_of_address (hn ▸ hpos) hc
  case positionOutside => exact fun ha => val_of_bad_address hpos (not_inBounds ha)
  case relativeInside => exact fun n hn hc => val_of_address (hn ▸ hrel) hc
  case relativeOutside => exact fun ha => val_of_bad_address hrel (not_inBounds ha)

/-- A store to an address inside memory: the cell there holds the word, and no other cell and no other field has changed
(R43, R90). -/
theorem store_changes_one_cell {s : State} {p : Param} {n : Nat} (h : effectiveAddress s p = some (n : Int))
    (hc : n < s.cfg.cap) (v : Word) : ∃ t, store s p v = .ok t ∧ t.mem.read n = v ∧
      (∀ b, b ≠ n → t.mem.read b = s.mem.read b) ∧ t = { s with mem := t.mem } :=
  ⟨_, store_of_address h hc v, Memory.read_write_same s.mem n v, fun _ hb => Memory.read_write_other s.mem v hb, rfl⟩

/-- Settles O8: in either mode the address given is the resolver's, and there the store changes its one cell or faults. -/
theorem destinationIsWrittenAtItsAddress : Obligations.DestinationIsWrittenAtItsAddress := by
  intro s r v m a hmode
  have haddr : effectiveAddress s ⟨m, r⟩ = some a := by
    rcases hmode with ⟨rfl, rfl⟩ | ⟨rfl, rfl⟩
    · exact effectiveAddress_position s r
    · exact effectiveAddress_relative s r
  refine ⟨?inside, ?outside⟩
  case inside => exact fun n hn hc => store_changes_one_cell (hn ▸ haddr) hc v
  case outside => exact fun ha => store_of_bad_address haddr (not_inBounds ha) v

/-- Settles O9: the sum of two words needs 65 bits and no more, so neither the bounds check nor `fval` loses any of it. -/
theorem relativeAddressNeverWraps : Obligations.RelativeAddressNeverWraps := by
  intro s r v
  have haddr := effectiveAddress_relative s r
  obtain ⟨hlow, hhigh⟩ := effectiveAddress_bounds haddr
  refine ⟨⟨hlow, by omega⟩, ?inside, ?outside⟩
  case inside =>
    intro n hn hc
    rw [hn] at haddr
    obtain ⟨t, hstore, hcell, hother, -⟩ := store_changes_one_cell haddr hc v
    exact ⟨val_of_address haddr hc, t, hstore, hcell, hother⟩
  case outside =>
    intro ha
    have hb := not_inBounds ha
    exact ⟨val_of_bad_address haddr hb, store_of_bad_address haddr hb v, toInt_ofInt_65 hlow (hhigh.trans (by decide))⟩

/-! ## The faults of phase X in their order (R93) -/

/-- The four instructions of format RRW are `execRRW` of a function that answers a word unless an exact sum or product does
not fit (R100, R101, R130, R131). -/
theorem exec_formatRRW {mk : Param → Param → Param → Instr} (hmk : mk = .add ∨ mk = .mul ∨ mk = .lt ∨ mk = .eq)
    (s : State) : ∃ f : Word → Word → Except Raise Word,
      (∀ p0 p1 p2, exec (mk p0 p1 p2) s = execRRW f p0 p1 p2 s) ∧
      ∀ x y : Word, (mk = .add → fits (x.toInt + y.toInt) = true) → (mk = .mul → fits (x.toInt * y.toInt) = true) →
        ∃ r, f x y = .ok r := by
  rcases hmk with rfl | rfl | rfl | rfl
  · exact ⟨aluAdd s.cfg.ovf, fun _ _ _ => rfl, fun _ _ hadd _ => ⟨_, narrow_of_fits (hadd rfl) _⟩⟩
  · exact ⟨aluMul s.cfg.ovf, fun _ _ _ => rfl, fun _ _ _ hmul => ⟨_, narrow_of_fits (hmul rfl) _⟩⟩
  · exact ⟨fun x y => .ok (aluLess x y), fun _ _ _ => rfl, fun _ _ _ _ => ⟨_, rfl⟩⟩
  · exact ⟨fun x y => .ok (aluEqual x y), fun _ _ _ => rfl, fun _ _ _ _ => ⟨_, rfl⟩⟩

/-- Settles O29: `execRRW` tests the destination's mode, then reads the operands, then stores, and the first of these to
fail is the fault taken. -/
theorem formatRRWFaultsInOrder : Obligations.FormatRRWFaultsInOrder := by
  intro mk s p0 p1 p2 hmk
  obtain ⟨f, hexec, hresult⟩ := exec_formatRRW hmk s
  rw [hexec]
  refine ⟨fun himm => ?immediate, fun hmode => ?_⟩
  case immediate => exact execRRW_immediate (fun hp => canBeWritten_iff.1 hp himm) f p0 p1 s
  have hp : p2.canBeWritten = true := canBeWritten_iff.2 hmode
  refine ⟨?firstOperand, ?secondOperand, ?destination⟩
  case firstOperand =>
    intro a h0 ha
    exact execRRW_val0 hp (val_of_bad_address h0 (not_inBounds ha))
  case secondOperand =>
    intro x a h0 h1 ha
    exact execRRW_val1 hp h0 (val_of_bad_address h1 (not_inBounds ha))
  case destination =>
    intro x y a h0 h1 hadd hmul h2 ha
    obtain ⟨r, hr⟩ := hresult x y hadd hmul
    rw [execRRW_result hp h0 h1 hr, store_of_bad_address h2 (not_inBounds ha)]
    rfl

theorem execOutput_val_error {p : Param} {s : State} {e : Raise} (h : val s p = .error e) :
    execOutput p s = .next (raise s e) := by
  simp only [execOutput, h]

theorem execArb_val_error {p : Param} {s : State} {e : Raise} (h : val s p = .error e) :
    execArb p s = .next (raise s e) := by
  simp only [execArb, h, bind, Except.bind, finish_error]

/-- Settles O38: each of the four reads its first operand before anything else, and a jump then reads its target before the
condition is tested. -/
theorem readingInstructionsFaultInOrder : Obligations.ReadingInstructionsFaultInOrder := by
  intro s p0 p1 a ha
  have hb := not_inBounds ha
  refine ⟨fun h0 => ?firstOperand, fun c h0 h1 => ?target⟩
  case firstOperand =>
    have hv := val_of_bad_address h0 hb
    exact ⟨jumpIf_val0 hv, jumpIf_val0 hv, execOutput_val_error hv, execArb_val_error hv⟩
  case target =>
    have hv := val_of_bad_address h1 hb
    exact ⟨jumpIf_val1 h0 hv, jumpIf_val1 h0 hv⟩

/-! ## How a step begins (R80 to R86) -/

/-- Settles O20: only `k` words follow the opcode word in memory, so the decoder stops at parameter `k` for want of its word,
whatever its digit. -/
theorem missingParameterWordFaults : Obligations.MissingParameterWordFaults := by
  intro s n k o hR _ hn h0 hop hk hc hlow
  have hcn : n < s.cfg.cap := by omega
  have h3 := o.count_le
  have hlen := wordsFrom_length s.mem s.cfg.cap (n + 1) 3
  set ws := wordsFrom s.mem s.cfg.cap (n + 1) 3
  have hparam : decodeParam (s.mem.read n) k (ws.drop k) = .error (.missingParameter k) := by
    rw [List.drop_of_length_le (by omega), decodeParam_nil]
  have hd : decode (fetchWords s n) = .error (.missingParameter k) := by
    rw [fetchWords_cons hcn]
    exact decode_stop (ofValue_of_code h0 hop) hk ws hlow (by omega) hparam
  push_cast
  exact rejected_faultsAs hR hn hcn hd

/-- Settles O14: a latch that is full is executed as it is, and otherwise the state at the end of phase W is `decoded`. -/
theorem stepRunsTheDecodedInstruction : Obligations.StepRunsTheDecodedInstruction :=
  ⟨fun _ _ => step_of_latch, fun _ _ _ _ => step_eq_exec_of_decode⟩

/-- The boundary (R81). -/
theorem step_of_boundary {s : State} (hR : Ready s) (hb : (s.cfg.cap : Int) ≤ s.ip.toInt) :
    step s = .next (haltWith s .boundary) :=
  step_of_stopped hR (by rw [fetchDecode, if_pos hb])

/-- Settles O16: the latch that the halt empties holds nothing when a step begins. -/
theorem boundaryEndsTheRun : Obligations.BoundaryEndsTheRun := by
  intro s hR hb
  simp only [step_of_boundary hR hb, haltWith, hR.2]

end Sys2Proof.Machine

/-! Proofs of the statements of 41_arithmetic.md: the exact result stored by Add and Multiply, by phase X and by a whole
step, and the overflow fault. -/

namespace Sys2Proof.Machine

/-! ## Results that fit (R100, R101, R104) -/

/-- A format RRW instruction that completes: the destination cell holds the result, and no other cell and no other field but
the latch has changed (R92). -/
theorem execRRW_changes_one_cell {f : Word → Word → Except Raise Word} {p0 p1 p2 : Param} {s : State} {x y r : Word}
    {a : Nat} (h0 : val s p0 = .ok x) (h1 : val s p1 = .ok y) (hf : f x y = .ok r)
    (ha : effectiveAddress s p2 = some (a : Int)) (hc : a < s.cfg.cap) :
    ∃ t, execRRW f p0 p1 p2 s = .next t ∧ t.mem.read a = r ∧ (∀ b, b ≠ a → t.mem.read b = s.mem.read b) ∧
      t = { s with mem := t.mem, latch := none } :=
  ⟨_, execRRW_completes h0 h1 hf ha hc, Memory.read_write_same s.mem a r,
    fun _ hb => Memory.read_write_other s.mem r hb, rfl⟩

/-- Where the result is an exact integer that fits a word, the cell's value is that integer, in either overflow mode. -/
theorem execRRW_stores_exact {f : Word → Word → Except Raise Word} {p0 p1 p2 : Param} {s : State} {x y : Word} {a : Nat}
    {o : Overflow} {v : Int} (h0 : val s p0 = .ok x) (h1 : val s p1 = .ok y) (hf : f x y = narrow o v)
    (ha : effectiveAddress s p2 = some (a : Int)) (hc : a < s.cfg.cap) (hv : fits v = true) :
    ∃ t, execRRW f p0 p1 p2 s = .next t ∧ (t.mem.read a).toInt = v ∧ (∀ b, b ≠ a → t.mem.read b = s.mem.read b) ∧
      t = { s with mem := t.mem, latch := none } := by
  obtain ⟨t, hexec, hcell, hother, hframe⟩ := execRRW_changes_one_cell h0 h1 (hf.trans (narrow_of_fits hv o)) ha hc
  exact ⟨t, hexec, hcell ▸ toInt_ofInt_of_fits hv, hother, hframe⟩

/-- Settles O22: the sum the ALU narrows is the exact one. -/
theorem addStoresTheExactSum : Obligations.AddStoresTheExactSum :=
  fun s _ _ _ x y _ h0 h1 => execRRW_stores_exact (f := aluAdd s.cfg.ovf) (v := x.toInt + y.toInt) h0 h1 rfl

/-- Settles O23: the product the ALU narrows is the exact one. -/
theorem mulStoresTheExactProduct : Obligations.MulStoresTheExactProduct :=
  fun s _ _ _ x y _ h0 h1 => execRRW_stores_exact (f := aluMul s.cfg.ovf) (v := x.toInt * y.toInt) h0 h1 rfl

/-- Settles O26: phases B to W leave memory and `rbase` alone, so operands and destination at the end of phase W are those
of the state the step began in. -/
theorem arithmeticUsesTheStateTheStepBeganIn : Obligations.ArithmeticUsesTheStateTheStepBeganIn := by
  intro s n a i rest p0 p1 p2 x y v hi hR hn hc hd h0 h1 ha hca hv
  set u := decoded s (s.mem.read n) i
  have h0u : val u p0 = .ok x := (val_congr rfl rfl rfl p0).trans h0
  have h1u : val u p1 = .ok y := (val_congr rfl rfl rfl p1).trans h1
  have hau : effectiveAddress u p2 = some (a : Int) := (effectiveAddress_congr rfl p2).trans ha
  have hcount : i.count = 3 := by rcases hi with ⟨rfl, -⟩ | ⟨rfl, -⟩ <;> rfl
  have hip : u.ip = s.ip + 4 := congrArg (ipAfter s.ip) hcount
  obtain ⟨t, hexec, hcell, hother, hframe⟩ : ∃ t, exec i u = .next t ∧ (t.mem.read a).toInt = v ∧
      (∀ b, b ≠ a → t.mem.read b = u.mem.read b) ∧ t = { u with mem := t.mem, latch := none } := by
    rcases hi with ⟨rfl, rfl⟩ | ⟨rfl, rfl⟩
    · exact addStoresTheExactSum u p0 p1 p2 x y a h0u h1u hau hca hv
    · exact mulStoresTheExactProduct u p0 p1 p2 x y a h0u h1u hau hca hv
  have hstep : step s = .next t := (step_eq_exec_of_decode hR hn hc hd).trans hexec
  refine ⟨t, hstep, hcell, hother, ?_⟩
  rw [hframe]
  exact ⟨hip, rfl, hR.1, rfl⟩

/-! ## Results that do not fit (R102) -/

theorem execArb_result_error {p : Param} {s : State} {x : Word} {e : Raise} (h : val s p = .ok x)
    (hn : aluAdd s.cfg.ovf s.rbase x = .error e) : execArb p s = .next (raise s e) := by
  simp only [execArb, h, hn, bind, Except.bind, finish_error]

/-- Settles O27: each of the three narrows its exact result before it writes anything, and the state given is that of
raising ArithmeticOverflow. -/
theorem overflowIsAFault : Obligations.OverflowIsAFault := by
  intro s p0 p1 p2 x y hovf h0
  have hnarrow : ∀ v : Int, ¬ fits v = true → narrow s.cfg.ovf v = .error overflowed :=
    fun _ hv => hovf ▸ narrow_fault hv
  refine ⟨fun h1 hp hv => ?add, fun h1 hp hv => ?mul, fun hv => ?arb⟩
  case add => exact execRRW_result_error (f := aluAdd s.cfg.ovf) hp h0 h1 (hnarrow _ hv)
  case mul => exact execRRW_result_error (f := aluMul s.cfg.ovf) hp h0 h1 (hnarrow _ hv)
  case arb => exact execArb_result_error h0 (hnarrow _ hv)

end Sys2Proof.Machine

/-! Proofs of the statements of 42_io.md: Input and Output that complete, the faults of Input, and the waits for an answer
and for the sink. -/

namespace Sys2Proof.Machine

/-! ## What Input does with each answer (R110 to R112) -/

theorem execInput_immediate {p : Param} (hp : ¬ p.canBeWritten = true) (s : State) :
    execInput p s = .next (raise s badDestination) := by
  simp only [execInput, if_neg hp]

theorem execInput_readFailure {p : Param} {s t : State} (hp : p.canBeWritten = true)
    (h : requestInput s = some (.readFailure, t)) : execInput p s = .next (raise t readFailed) := by
  simp only [execInput, if_pos hp, h]

theorem execInput_parseFailure {p : Param} {s t : State} (hp : p.canBeWritten = true)
    (h : requestInput s = some (.parseFailure, t)) : execInput p s = .next (raise t parseFailed) := by
  simp only [execInput, if_pos hp, h]

theorem execInput_value {p : Param} {s t : State} {v : Word} (hp : p.canBeWritten = true)
    (h : requestInput s = some (.value v, t)) : execInput p s = finish t (store t p v) := by
  simp only [execInput, if_pos hp, h]

theorem execInput_unanswered {p : Param} {s : State} (hp : p.canBeWritten = true) (h : requestInput s = none) :
    execInput p s = .next (waitOn s (.input p)) := by
  simp only [execInput, if_pos hp, h]

/-! ## Input completes, faults and waits -/

/-- Settles O30: the store is into the state whose answer has been consumed, and `input` plays no part in the address. -/
theorem inStoresTheAnswer : Obligations.InStoresTheAnswer := by
  intro s p0 v rest a hin ha hc
  have hp : p0.canBeWritten = true := effectiveAddress_isSome_iff.1 ⟨_, ha⟩
  obtain ⟨t, hstore, hcell, hother, hframe⟩ := store_changes_one_cell (s := { s with input := rest }) ha hc v
  have hexec : execInput p0 s = .next (retire t) := by
    rw [execInput_value hp (requestInput_cons hin), hstore, finish_ok]
  exact ⟨retire t, hexec, hcell, hother, congrArg retire hframe⟩

/-- Settles O31: the destination's mode is tested before the request, its address only after a value has been consumed. -/
theorem inFaults : Obligations.InFaults := by
  intro s p0
  refine ⟨fun himm => ?immediate, fun hmode => ?_⟩
  case immediate => exact execInput_immediate (fun hp => canBeWritten_iff.1 hp himm) s
  have hp : p0.canBeWritten = true := canBeWritten_iff.2 hmode
  refine ⟨?readFailure, ?parseFailure, ?ranOut, ?destination⟩
  case readFailure => exact fun rest hin => execInput_readFailure hp (requestInput_cons hin)
  case parseFailure => exact fun rest hin => execInput_parseFailure hp (requestInput_cons hin)
  case ranOut => exact fun hin hend => execInput_readFailure hp (requestInput_end hin hend)
  case destination =>
    intro v rest a hin haddr ha
    have hstore : store { s with input := rest } p0 v = .error (outOfRange a) :=
      store_of_bad_address (s := { s with input := rest }) haddr (not_inBounds ha) v
    exact (execInput_value hp (requestInput_cons hin)).trans (congrArg (finish _) hstore)

/-- Settles O32: the request of the state that waits is again never answered, and the answer appended to an empty sequence
is the next one. -/
theorem inWaitsForItsAnswer : Obligations.InWaitsForItsAnswer := by
  intro s p0 hs hmode hin hend
  have hp : p0.canBeWritten = true := canBeWritten_iff.2 hmode
  set w : State := { s with latch := some (.input p0) }
  refine ⟨?waits, ?waitsOn, fun v a ha hc => ?finishes⟩
  case waits => exact execInput_unanswered hp (requestInput_silent hin hend)
  case waitsOn =>
    have hw : requestInput w = none := requestInput_silent hin hend
    exact (step_of_latch (s := w) hs rfl).trans (execInput_unanswered hp hw)
  case finishes =>
    set u : State := hostAnswer w (.value v)
    have hnext : u.input = [.value v] := congrArg (· ++ [Answer.value v]) hin
    obtain ⟨t, hexec, hcell, hother, hframe⟩ := inStoresTheAnswer u p0 v [] a hnext ha hc
    refine ⟨t, (step_of_latch (s := u) hs rfl).trans hexec, hcell, hother, ?_⟩
    rw [hframe, ← hin]
    rfl

/-! ## The integers of the collaborator (R111) -/

theorem answerOfInt_of_fits {v : Int} (h : fits v = true) : answerOfInt v = .value (BitVec.ofInt 64 v) := if_pos h

theorem answerOfInt_of_not_fits {v : Int} (h : ¬ fits v = true) : answerOfInt v = .parseFailure := if_neg h

/-- Settles O33: `fits` holds of exactly the integers in `WMIN .. WMAX`, and each of these is the value of its word. -/
theorem inputIntegerIsNeverTruncated : Obligations.InputIntegerIsNeverTruncated := by
  intro v
  refine ⟨fun hv => ?word, fun hv => ?noWord⟩
  case word =>
    have hfits : fits v = true := fits_iff.2 hv
    exact ⟨_, answerOfInt_of_fits hfits, toInt_ofInt_of_fits hfits⟩
  case noWord =>
    refine answerOfInt_of_not_fits fun hfits => ?_
    obtain ⟨hlow, hhigh⟩ : WMIN ≤ v ∧ v ≤ WMAX := fits_iff.1 hfits
    omega

/-! ## Output completes and waits (R113 to R115) -/

theorem execOutput_accepting {p : Param} {s : State} {x : Word} (h : val s p = .ok x) (hsink : s.sink = .accepting) :
    execOutput p s = .next { s with output := s.output ++ [x], latch := none } := by
  simp only [execOutput, h, emitOutput_accepting hsink, retire]

theorem execOutput_stalled {p : Param} {s : State} {x : Word} (h : val s p = .ok x) (hsink : s.sink = .stalled) :
    execOutput p s = .next (waitOn s (.output p)) := by
  simp only [execOutput, h, emitOutput_stalled hsink]

/-- Settles O34: the word handed over to an accepting sink is the operand as it was read. -/
theorem outEmitsItsOperand : Obligations.OutEmitsItsOperand := fun _ _ _ => execOutput_accepting

/-- Settles O35: neither the latch nor the sink plays a part in reading the operand, so the step that waits reads the same
word each time. -/
theorem outWaitsForItsSink : Obligations.OutWaitsForItsSink := by
  intro s p0 x hs hv hsink
  set w : State := { s with latch := some (.output p0) }
  have hwv : val w p0 = .ok x := (val_congr rfl rfl rfl p0).trans hv
  have hav : val (hostAccept w) p0 = .ok x := (val_congr rfl rfl rfl p0).trans hv
  refine ⟨?waits, ?waitsOn, ?finishes⟩
  case waits => exact execOutput_stalled hv hsink
  case waitsOn => exact (step_of_latch (s := w) hs rfl).trans (execOutput_stalled hwv hsink)
  case finishes => exact (step_of_latch (s := hostAccept w) hs rfl).trans (execOutput_accepting hav rfl)

end Sys2Proof.Machine

/-! Proofs of the statements of 43_jumps.md: JumpIfTrue and JumpIfFalse that complete. -/

namespace Sys2Proof.Machine

/-! ## The condition of a jump (R120, R121) -/

theorem condZero_iff {x : Word} : condZero x = true ↔ x = 0 := by
  rw [condZero, decide_eq_true_iff, toInt_eq_zero_iff]

theorem condNonzero_iff {x : Word} : condNonzero x = true ↔ x ≠ 0 := by
  rw [condNonzero, decide_eq_true_iff, Ne, toInt_eq_zero_iff]

/-! ## Jumps that complete (R120 to R123) -/

/-- Settles O36: JNZ jumps where `c ≠ 0`, and the statement writes that choice of `ip` the other way round. -/
theorem jnzJumpsOnNonzero : Obligations.JnzJumpsOnNonzero := by
  intro s p0 p1 c t h0 h1
  have hjump := jumpIf_completes (c := condNonzero) h0 h1
  have hip : (if condNonzero c = true then t else s.ip) = if c = 0 then s.ip else t := by
    simp only [condNonzero_iff, ne_eq, ite_not]
  rwa [hip] at hjump

/-- Settles O37: JZ jumps where `c = 0`. -/
theorem jzJumpsOnZero : Obligations.JzJumpsOnZero := by
  intro s p0 p1 c t h0 h1
  have hjump := jumpIf_completes (c := condZero) h0 h1
  have hip : (if condZero c = true then t else s.ip) = if c = 0 then t else s.ip := by
    simp only [condZero_iff]
  rwa [hip] at hjump

end Sys2Proof.Machine

/-! Proofs of the statements of 44_compare.md: LessThan and Equals that complete. -/

namespace Sys2Proof.Machine

/-! ## What a comparison answers (R103, R130, R131) -/

theorem aluLess_toInt (x y : Word) : (aluLess x y).toInt = if x.toInt < y.toInt then 1 else 0 :=
  apply_ite BitVec.toInt (x.toInt < y.toInt) 1 0

/-- Words of the same signed value are the same word. -/
theorem aluEqual_toInt (x y : Word) : (aluEqual x y).toInt = if x = y then 1 else 0 := by
  simp only [aluEqual, BitVec.toInt_inj]
  exact apply_ite BitVec.toInt (x = y) 1 0

/-! ## Comparisons that complete -/

/-- Where the ALU operation `g` has a result for all operands, as a comparison has, no operand values make the instruction
fault. -/
theorem execRRW_stores_total {g : Word → Word → Word} {p0 p1 p2 : Param} {s : State} {x y : Word} {a : Nat} {v : Int}
    (hv : (g x y).toInt = v) (h0 : val s p0 = .ok x) (h1 : val s p1 = .ok y)
    (ha : effectiveAddress s p2 = some (a : Int)) (hc : a < s.cfg.cap) :
    ∃ t, execRRW (fun x y => .ok (g x y)) p0 p1 p2 s = .next t ∧ (t.mem.read a).toInt = v ∧
      (∀ b, b ≠ a → t.mem.read b = s.mem.read b) ∧ t = { s with mem := t.mem, latch := none } := by
  obtain ⟨t, hexec, hcell, hother, hframe⟩ := execRRW_changes_one_cell (f := fun x y => .ok (g x y)) h0 h1 rfl ha hc
  exact ⟨t, hexec, hcell ▸ hv, hother, hframe⟩

/-- Settles O24: the word LT stores is `aluLess` of its operands. -/
theorem ltStoresTheComparison : Obligations.LtStoresTheComparison :=
  fun _ _ _ _ x y _ => execRRW_stores_total (aluLess_toInt x y)

/-- Settles O25: the word EQ stores is `aluEqual` of its operands. -/
theorem eqStoresTheComparison : Obligations.EqStoresTheComparison :=
  fun _ _ _ _ x y _ => execRRW_stores_total (aluEqual_toInt x y)

end Sys2Proof.Machine

/-! Proofs of the statements of 45_relbase.md: AdjustRelativeBase that completes, and the base its operand is read with. -/

namespace Sys2Proof.Machine

/-! ## The relative base adjusted (R140, R141) -/

theorem execArb_completes {p : Param} {s : State} {x r : Word} (h : val s p = .ok x)
    (hr : aluAdd s.cfg.ovf s.rbase x = .ok r) : execArb p s = .next { s with rbase := r, latch := none } := by
  simp only [execArb, h, hr, bind, Except.bind, finish_ok, retire]

/-- Settles O39: a sum that fits is narrowed, in either overflow mode, to the word it is the value of. -/
theorem arbAddsToTheRelativeBase : Obligations.ArbAddsToTheRelativeBase := by
  intro s p0 x h hfits
  have hsum : aluAdd s.cfg.ovf s.rbase x = .ok (BitVec.ofInt 64 (s.rbase.toInt + x.toInt)) := narrow_of_fits hfits _
  exact ⟨_, execArb_completes h hsum, toInt_ofInt_of_fits hfits, rfl⟩

/-- Settles O40: the operand is the word at the sum of `r` and the `rbase` of the state ARB is executed in, and it is to
that `rbase` that the operand is then added. -/
theorem arbReadsItsOperandWithTheOldBase : Obligations.ArbReadsItsOperandWithTheOldBase := by
  intro s r a ha hc hfits
  have hv : val s ⟨.relative, r⟩ = .ok (s.mem.read a) := val_of_address (ha ▸ effectiveAddress_relative s r) hc
  obtain ⟨t, hexec, hsum, -⟩ := arbAddsToTheRelativeBase s ⟨.relative, r⟩ (s.mem.read a) hv hfits
  exact ⟨t, hexec, hsum⟩

end Sys2Proof.Machine

/-! Proofs of the statements of 46_halt.md: Halt in phase X. -/

namespace Sys2Proof.Machine

/-! ## Halt completes (R145) -/

/-- Halt has no operand and no destination: it is the write of the run state by `haltWith`, under the cause HaltInstr. -/
theorem exec_hlt (s : State) : exec .hlt s = .next (haltWith s .haltInstr) := rfl

/-- Settles O41: the state Halt answers is `haltWith`'s, which differs from `s` in `status`, `hcause` and `latch` alone. -/
theorem hltHaltsTheMachine : Obligations.HltHaltsTheMachine := by
  intro s
  rw [exec_hlt, haltWith]

end Sys2Proof.Machine

/-! Proofs of the statements of 60_exceptions.md: what a step that faults leaves, and what the trace observer sees. And of
the one of 93_implementation_defined.md: the arithmetic that D3 and U1 let a model offer. -/

namespace Sys2Proof.Machine

/-! ## What a step that faults leaves (R158, R161) -/

/-- A step of a Running machine that faults does so in phase X of an instruction, or before it in a step that fetched. -/
theorem faulting_step_cases {s t : State} (hs : s.status = .running) (h : step s = .next t) (ht : t.status = .faulted) :
    (∃ i u, Executes s i u ∧ ExecEffect i u t) ∨
      (∃ ip e, Ready s ∧ GoodRaise s e ∧ t = raise { s with a0 := s.ip, ip := ip } e) := by
  rcases step_effect h with hx | ⟨-, hn⟩ | ⟨rfl, -⟩ | ⟨ip, e, hR, he, rfl, -⟩
  · exact .inl hx
  · exact absurd hs hn
  · simp at ht
  · exact .inr ⟨ip, e, hR, he, rfl⟩

/-- Phase X has for `a0` the address its own step began at, or while it waits the one latched before (R82, R112). -/
theorem Executes.a0_eq {s u : State} {i : Instr} (hu : Executes s i u) :
    (s.latch = none ∧ u.a0 = s.ip) ∨ (s.latch = some i ∧ u.a0 = s.a0) := by
  rcases hu.from_latch_or_decode with ⟨rfl, hl⟩ | ⟨a, hR, -, -, rfl, -⟩
  · exact .inr ⟨hl, rfl⟩
  · exact .inl ⟨hR.2, rfl⟩

/-- Every fault copies `a0` to `fpos`: the address of the fetch, or the one latched before the wait (R158). -/
theorem fpos_of_faulting_step {s t : State} (hs : s.status = .running) (h : step s = .next t)
    (ht : t.status = .faulted) :
    (s.latch = none ∧ t.fpos = s.ip) ∨ (∃ i, s.latch = some i ∧ t.fpos = s.a0) := by
  rcases faulting_step_cases hs h ht with ⟨i, u, hu, he⟩ | ⟨ip, e, hR, -, rfl⟩
  · obtain ⟨-, -, -, -, -, -, -, hfpos, -⟩ := he.faulted (hu.status.trans hs) ht
    rcases hu.a0_eq with ⟨hl, ha0⟩ | ⟨hl, ha0⟩
    · exact .inl ⟨hl, hfpos.trans ha0⟩
    · exact .inr ⟨i, hl, hfpos.trans ha0⟩
  · exact .inl ⟨hR.2, rfl⟩

/-- Settles O11: the latch tells the two positions apart, and the payload of the fetch fault is O17's. -/
theorem faultPositionIsWhereTheStepBegan : Obligations.FaultPositionIsWhereTheStepBegan := by
  intro s t hs h ht
  have hpos := fpos_of_faulting_step hs h ht
  refine ⟨fun hl => ?fetched, fun i hl => ?waited, fun hl hneg => ?fetchFault⟩
  case fetched =>
    rcases hpos with ⟨-, hpos⟩ | ⟨i, hl', -⟩
    · exact hpos
    · rw [hl] at hl'; cases hl'
  case waited =>
    rcases hpos with ⟨hl', -⟩ | ⟨-, -, hpos⟩
    · rw [hl] at hl'; cases hl'
    · exact hpos
  case fetchFault =>
    obtain ⟨t', h', hfault, -⟩ := negativeIpFaultsAtTheFetch s ⟨hs, hl⟩ hneg
    rw [h] at h'; cases h'
    exact hfault.fval

/-- Settles O12: a fault of phase X leaves what phases B to W left, and those change none of this either. -/
theorem faultingStepChangesNoMemory : Obligations.FaultingStepChangesNoMemory := by
  intro s t hs h ht
  rcases faulting_step_cases hs h ht with ⟨i, u, hu, he⟩ | ⟨ip, e, -, he, rfl⟩
  · obtain ⟨hmem, hrbase, hout, hhcause, hcfg, hfcode, hlatch, -, -⟩ := he.faulted (hu.status.trans hs) ht
    exact ⟨hmem.trans hu.mem, hrbase.trans hu.rbase, hout.trans hu.output, hhcause.trans hu.hcause, hcfg.trans hu.cfg,
      hfcode, hlatch⟩
  · exact ⟨rfl, rfl, rfl, rfl, rfl, he.code, rfl⟩

/-- A rejected opcode word leaves `ip` past the parameters that had been passed (R86, R161). -/
theorem ip_of_rejected {s t : State} {n : Nat} {e : DecodeError} (hR : Ready s) (hn : s.ip.toInt = n) (hc : n < s.cfg.cap)
    (hd : decode (fetchWords s n) = .error e) (h : step s = .next t) :
    t.ip = s.ip + 1 + BitVec.ofNat 64 (parametersPassed e) := by
  rw [step_of_rejected hR hn hc hd] at h
  cases h
  exact ipAfter_eq _ _

/-- The count a rejection of phase W reports is the operation's (R84, R86). -/
theorem count_of_invalidWriteDestination {w : Word} {ws : List Word} {o : Op} {k : Nat}
    (ho : Op.ofValue (opcodeValue w) = some o) (hd : decode (w :: ws) = .error (.invalidWriteDestination k)) :
    k = o.count := by
  rcases decode_error hd with ⟨-, he⟩ | ⟨o', ho', ⟨_, -, -, he⟩ | ⟨_, -, -, he⟩ | he⟩
  · cases he
  · cases he
  · cases he
  · cases he
    rw [Option.some.inj (ho.symm.trans ho')]

/-- Settles O13: `ip` is where the phase that faulted found it. Phases D and P have passed no parameter, phases W and X
all of them. -/
theorem faultLeavesIpWhereTheStepHadGot : Obligations.FaultLeavesIpWhereTheStepHadGot := by
  intro s t hR h ht
  refine ⟨fun hneg => ?fetch, fun n hn hc => ⟨fun v hd => ?opcode, fun k hd => ?parameter, fun d hd => ?mode,
    fun k o ho hd => ?destination, fun i rest hd => ?executed⟩⟩
  case fetch =>
    rw [step_of_negative_ip hR hneg] at h
    cases h
    rfl
  case opcode | parameter | mode => exact (ip_of_rejected hR hn hc hd h).trans (BitVec.add_zero _)
  case destination =>
    have hk : k = o.count := count_of_invalidWriteDestination ho (fetchWords_cons hc ▸ hd)
    exact hk ▸ ip_of_rejected hR hn hc hd h
  case executed =>
    have he := execEffect_of_decode hR hn hc hd h
    obtain ⟨-, -, -, -, -, -, -, -, hip⟩ := he.faulted hR.1 ht
    exact hip.trans (ipAfter_eq _ _)

/-! ## A machine without its trace observer (R172) -/

/-- The outcome of a step with the observer taken away from its state. -/
def outcomeWithoutTrace : Host.Outcome State Fault Refusal → Host.Outcome State Fault Refusal
  | .next t => .next (withoutTrace t)
  | .fault r => .fault r
  | .refused r => .refused r

@[simp] theorem outcomeWithoutTrace_next (t : State) : outcomeWithoutTrace (.next t) = .next (withoutTrace t) := rfl

@[simp] theorem val_withoutTrace (s : State) (p : Param) : val (withoutTrace s) p = val s p := val_congr rfl rfl rfl p

theorem memWrite_withoutTrace (s : State) (a : Int) (v : Word) :
    memWrite (withoutTrace s) a v = withoutTrace <$> memWrite s a v := by
  rcases memWrite_cases s a v with ⟨n, rfl, hn, h⟩ | ⟨hb, h⟩
  · rw [h, memWrite_nat (s := withoutTrace s) hn]; rfl
  · rw [h, memWrite_of_not_inBounds (s := withoutTrace s) hb]; rfl

@[simp] theorem store_withoutTrace (s : State) (p : Param) (v : Word) :
    store (withoutTrace s) p v = withoutTrace <$> store s p v := by
  simp only [store, effectiveAddress_congr (withoutTrace_rbase s)]
  cases effectiveAddress s p with
  | none => rfl
  | some a => exact memWrite_withoutTrace s a v

/-- The end of a step is the same with and without the observer. -/
theorem finish_withoutTrace (s : State) (r : Except Raise State) :
    finish (withoutTrace s) (withoutTrace <$> r) = outcomeWithoutTrace (finish s r) := by
  cases r <;> rfl

theorem execRRW_withoutTrace (f : Word → Word → Except Raise Word) (p0 p1 p2 : Param) (s : State) :
    execRRW f p0 p1 p2 (withoutTrace s) = outcomeWithoutTrace (execRRW f p0 p1 p2 s) := by
  by_cases hp : p2.canBeWritten = true
  · simp only [execRRW, if_pos hp, ← finish_withoutTrace, map_bind, val_withoutTrace, store_withoutTrace]
  · rw [execRRW_immediate hp, execRRW_immediate hp]
    rfl

theorem jumpIf_withoutTrace (c : Word → Bool) (p0 p1 : Param) (s : State) :
    jumpIf c p0 p1 (withoutTrace s) = outcomeWithoutTrace (jumpIf c p0 p1 s) := by
  cases h0 : val s p0 with
  | error e => rw [jumpIf_val0 h0, jumpIf_val0 ((val_withoutTrace s p0).trans h0)]; rfl
  | ok x =>
    have h0' := (val_withoutTrace s p0).trans h0
    cases h1 : val s p1 with
    | error e => rw [jumpIf_val1 h0 h1, jumpIf_val1 h0' ((val_withoutTrace s p1).trans h1)]; rfl
    | ok t => rw [jumpIf_completes h0 h1, jumpIf_completes h0' ((val_withoutTrace s p1).trans h1)]; rfl

theorem execArb_withoutTrace (p : Param) (s : State) :
    execArb p (withoutTrace s) = outcomeWithoutTrace (execArb p s) := by
  simp only [execArb, ← finish_withoutTrace, map_bind, val_withoutTrace]
  rfl

theorem requestInput_withoutTrace (s : State) :
    requestInput (withoutTrace s) = (requestInput s).map (Prod.map id withoutTrace) := by
  rcases requestInput_cases s with ⟨a, rest, hin, hr⟩ | ⟨hin, he, hr⟩ | ⟨hin, he, hr⟩
  · rw [hr, requestInput_cons (s := withoutTrace s) hin]; rfl
  · rw [hr, requestInput_end (s := withoutTrace s) hin he]; rfl
  · rw [hr, requestInput_silent (s := withoutTrace s) hin he]; rfl

theorem execInput_withoutTrace (p : Param) (s : State) :
    execInput p (withoutTrace s) = outcomeWithoutTrace (execInput p s) := by
  by_cases hp : p.canBeWritten = true
  · simp only [execInput, if_pos hp, requestInput_withoutTrace]
    cases requestInput s with
    | none => rfl
    | some r =>
      obtain ⟨answer, t⟩ := r
      cases answer with
      | readFailure | parseFailure => rfl
      | value v => exact (congrArg (finish _) (store_withoutTrace t p v)).trans (finish_withoutTrace t _)
  · rw [execInput_immediate hp, execInput_immediate hp]
    rfl

theorem execOutput_withoutTrace (p : Param) (s : State) :
    execOutput p (withoutTrace s) = outcomeWithoutTrace (execOutput p s) := by
  cases hv : val s p with
  | error e => rw [execOutput_val_error hv, execOutput_val_error ((val_withoutTrace s p).trans hv)]; rfl
  | ok x =>
    have hv' := (val_withoutTrace s p).trans hv
    cases hs : s.sink with
    | accepting => rw [execOutput_accepting hv hs, execOutput_accepting hv' hs]; rfl
    | stalled => rw [execOutput_stalled hv hs, execOutput_stalled hv' hs]; rfl

/-- No instruction's meaning looks at the observer. -/
theorem exec_withoutTrace (i : Instr) (s : State) : exec i (withoutTrace s) = outcomeWithoutTrace (exec i s) := by
  cases i with
  | add p0 p1 p2 | mul p0 p1 p2 | lt p0 p1 p2 | eq p0 p1 p2 => exact execRRW_withoutTrace _ p0 p1 p2 s
  | input p0 => exact execInput_withoutTrace p0 s
  | output p0 => exact execOutput_withoutTrace p0 s
  | jnz p0 p1 | jz p0 p1 => exact jumpIf_withoutTrace _ p0 p1 s
  | arb p0 => exact execArb_withoutTrace p0 s
  | hlt => rfl

/-- A step and taking the observer away commute: neither the test that picks the step's case nor phase X looks at the
observer, and the event of R172 goes nowhere when there is none. -/
theorem step_withoutTrace (s : State) : step (withoutTrace s) = outcomeWithoutTrace (step s) := by
  rcases step_cases s with ⟨hn, he⟩ | ⟨i, hs, hl, he⟩ | ⟨hR, hb, he⟩ | ⟨hR, hneg, he⟩ |
    ⟨a, hR, ha, hc, ⟨e, hd, he⟩ | ⟨i, rest, hd, he⟩⟩
  · rw [he, step_of_ended (s := withoutTrace s) hn]; rfl
  · rw [he, step_of_latch (s := withoutTrace s) hs hl, exec_withoutTrace]
  · rw [he, step_of_boundary (s := withoutTrace s) hR hb]; rfl
  · rw [he, step_of_negative_ip (s := withoutTrace s) hR hneg]; rfl
  · rw [he, step_of_rejected (s := withoutTrace s) hR ha hc hd]; rfl
  · rw [he, step_eq_exec_of_decode (s := withoutTrace s) hR ha hc hd, ← exec_withoutTrace]; rfl

/-- Settles O54, which is `step_withoutTrace` for a step that answers a next state. -/
theorem traceObserverHasNoEffect : Obligations.TraceObserverHasNoEffect := by
  intro s t h
  rw [step_withoutTrace, h, outcomeWithoutTrace_next]

/-! ## The events the observer receives (R172, D26) -/

theorem ExecEffect.trace_eq {i : Instr} {s t : State} (h : ExecEffect i s t) : t.trace = s.trace := by
  cases h <;> rfl

/-- Phase X begins with its instruction's event added when the step decoded it, and without when it was waiting. -/
theorem Executes.trace_eq {s u : State} {i : Instr} (hu : Executes s i u) :
    (Ready s ∧ u.trace = s.trace.map (· ++ [traceEvent s.ip (s.mem.read s.ip.toInt.toNat) i])) ∨
      (¬ Ready s ∧ u.trace = s.trace) := by
  rcases hu.from_latch_or_decode with ⟨rfl, hl⟩ | ⟨a, hR, ha, -, rfl, -⟩
  · refine .inr ⟨fun hR => ?_, rfl⟩
    rw [hR.2] at hl
    cases hl
  · exact .inl ⟨hR, by rw [ha]; rfl⟩

/-- At the boundary there is no instruction to execute (R81). -/
theorem current_of_boundary {s : State} (hR : Ready s) (hb : (s.cfg.cap : Int) ≤ s.ip.toInt) : current s = none := by
  simp only [current, hR.1, hR.2]
  rw [if_neg]
  omega

/-- A step shows the observer the instruction it decodes, or shows it nothing and has none or had it already. -/
theorem step_trace_cases {s t : State} (h : step s = .next t) :
    (∃ i, Ready s ∧ current s = some i ∧
        t.trace = s.trace.map (· ++ [traceEvent s.ip (s.mem.read s.ip.toInt.toNat) i])) ∨
      ((¬ Ready s ∨ current s = none) ∧ t.trace = s.trace) := by
  rcases step_effect h with ⟨i, u, hu, he⟩ | ⟨rfl, hn⟩ | ⟨rfl, hR, hb⟩ | ⟨ip, e, -, -, rfl, hcur⟩
  · rcases hu.trace_eq with ⟨hR, htr⟩ | ⟨hR, htr⟩
    · exact .inl ⟨i, hR, hu.current, he.trace_eq.trans htr⟩
    · exact .inr ⟨.inl hR, he.trace_eq.trans htr⟩
  · exact .inr ⟨.inl fun hR => hn hR.1, rfl⟩
  · exact .inr ⟨.inr (current_of_boundary hR hb), rfl⟩
  · exact .inr ⟨.inr hcur, rfl⟩

/-- Settles O55: the two cases of `step_trace_cases` exclude each other as the two clauses do. -/
theorem traceHasOneEventPerDecodedInstruction : Obligations.TraceHasOneEventPerDecodedInstruction := by
  intro s t events hev h
  rcases step_trace_cases h with ⟨i, hR, hcur, htr⟩ | ⟨hnone, htr⟩
  · rw [hev] at htr
    refine ⟨fun j _ hj => ?_, fun hnone => ?_⟩
    · obtain rfl : i = j := Option.some.inj (hcur.symm.trans hj)
      exact htr
    · simp [hR, hcur] at hnone
  · refine ⟨fun j hR hj => ?_, fun _ => htr.trans hev⟩
    simp [hR, hj] at hnone

/-! ## Results reduced modulo 2^64 (D3, U1; log entry 3) -/

/-- The word `narrow` answers under `OVF = wrap`. -/
theorem toInt_ofInt_emod (v : Int) :
    (BitVec.ofInt 64 v).toInt % 18446744073709551616 = v % 18446744073709551616 := by
  rw [BitVec.toInt_ofInt]
  exact Int.bmod_emod

/-- Where the ALU narrows an exact result under `OVF = wrap`, the cell holds it modulo 2^64, and no fit is asked. -/
theorem execRRW_stores_residue {f : Word → Word → Except Raise Word} {p0 p1 p2 : Param} {s : State} {x y : Word} {a : Nat}
    {o : Overflow} {v : Int} (ho : o = .wrap) (h0 : val s p0 = .ok x) (hf : f x y = narrow o v) (h1 : val s p1 = .ok y)
    (ha : effectiveAddress s p2 = some (a : Int)) (hc : a < s.cfg.cap) :
    ∃ t, execRRW f p0 p1 p2 s = .next t ∧ (t.mem.read a).toInt % 18446744073709551616 = v % 18446744073709551616 ∧
      (∀ b, b ≠ a → t.mem.read b = s.mem.read b) ∧ t = { s with mem := t.mem, latch := none } := by
  subst ho
  obtain ⟨t, hexec, hcell, hother, hframe⟩ := execRRW_changes_one_cell h0 h1 (hf.trans (narrow_wrap v)) ha hc
  exact ⟨t, hexec, hcell ▸ toInt_ofInt_emod v, hother, hframe⟩

/-- Settles O28: each of the three narrows its exact result. -/
theorem wrapStoresTheResultModuloTwoPow64 : Obligations.WrapStoresTheResultModuloTwoPow64 := by
  intro s p0 p1 p2 x y a hovf h0
  refine ⟨?add, ?mul, ?arb⟩
  case add => exact execRRW_stores_residue (f := aluAdd s.cfg.ovf) (v := x.toInt + y.toInt) hovf h0 rfl
  case mul => exact execRRW_stores_residue (f := aluMul s.cfg.ovf) (v := x.toInt * y.toInt) hovf h0 rfl
  case arb =>
    have hsum : aluAdd s.cfg.ovf s.rbase x = .ok (BitVec.ofInt 64 (s.rbase.toInt + x.toInt)) := hovf ▸ narrow_wrap _
    exact ⟨_, execArb_completes h0 hsum, toInt_ofInt_emod _, rfl⟩

end Sys2Proof.Machine
